-- ==== Sys2Proof/Word.lean ====
section
/-! DEFINITION. The value types that travel on CONV_BIT's ports, at the widths of 00_scope.md rule R4
(`BYTE_W`, `ELEM_W`, `DEC_W`, `N_ELEM`) and 30_encoding.md rule R55. Bit 0 is the least significant bit of
every bit vector (00_scope.md rule R6); nothing is signed. -/

namespace Sys2Proof

/-- ByteValue, an integer element of an octet, the accumulator, and a character code: `BYTE_W = ELEM_W = 8`
bits (10_state.md rules R22, R23, R26; 30_encoding.md rule R60). -/
abbrev Byte := BitVec 8

/-- `decimal`, the formatter's input: `DEC_W = 32` bits, unsigned (10_state.md rule R24). -/
abbrev Decimal := BitVec 32

/-- The operand field `arg` and the response field `rsp.data` (30_encoding.md rules R55, R58). -/
abbrev Bus := BitVec 64

/-- A command word: `op = cmd[66:64]`, `arg = cmd[63:0]` (30_encoding.md rule R55). -/
abbrev CmdWord := BitVec 67

/-- A string: a finite sequence of 8-bit character codes, index 0 leftmost (00_scope.md rule R8, 20_memory.md
rule R44, 30_encoding.md rule R60). -/
abbrev Str := List Byte

/-- An octet: exactly `N_ELEM = 8` elements, element 0 first and most significant (00_scope.md rule R7, 10_state.md
rule R21). The eight fields are the eight lanes, so an octet of another length cannot be written down.
`Octet Bool` is the boolean octet, `Octet Byte` the integer octet (00_scope.md section 7). -/
structure Octet (α : Type) where
  e0 : α
  e1 : α
  e2 : α
  e3 : α
  e4 : α
  e5 : α
  e6 : α
  e7 : α
deriving DecidableEq, Repr

/-- FormattedNumber: a 32-bit number with its binary string (10_state.md rule R24). It is a value on the response
port and never a register; `Sys2Proof.Machine.makeFormattedNumber` is its one constructor in the machine. -/
structure FormattedNumber where
  decimal : Decimal
  binary  : Str
deriving DecidableEq, Repr

end Sys2Proof
end

