-- ==== Sys2Proof/Machine/Operands.lean ====
section
/-! DEFINITION. The operand forms: octets lane by lane, and where each lane sits on a bus (00_scope.md rule R7;
20_memory.md rules R41 to R43; 30_encoding.md rule R57). The same layouts serve operands and results. -/

namespace Sys2Proof

/-- Element `i` of an octet, `o[i]` (00_scope.md section 6). -/
def Octet.get {α : Type} (o : Octet α) (i : Fin 8) : α :=
  match i with
  | 0 => o.e0
  | 1 => o.e1
  | 2 => o.e2
  | 3 => o.e3
  | 4 => o.e4
  | 5 => o.e5
  | 6 => o.e6
  | 7 => o.e7

/-- The octet whose element `i` is `f i`. -/
def Octet.ofFn {α : Type} (f : Fin 8 → α) : Octet α :=
  ⟨f 0, f 1, f 2, f 3, f 4, f 5, f 6, f 7⟩

/-- Lane by lane, at the same index (40_boolean_bit_conversion.md rule R84). -/
def Octet.map {α β : Type} (f : α → β) (o : Octet α) : Octet β :=
  .ofFn fun i => f (o.get i)

/-- The elements in order, element 0 first. -/
def Octet.toList {α : Type} (o : Octet α) : List α :=
  [o.e0, o.e1, o.e2, o.e3, o.e4, o.e5, o.e6, o.e7]

/-- Integer octet from a 64-bit field: element `i` is `w[63-8i : 56-8i]` (20_memory.md rule R42). -/
def intOctetOfBus (w : Bus) : Octet Byte :=
  .ofFn fun i => w.extractLsb' (56 - 8 * i.val) 8

/-- Integer octet onto a 64-bit field, element 0 on top (20_memory.md rule R42). -/
def intOctetToBus (e : Octet Byte) : Bus :=
  e.e0 ++ e.e1 ++ e.e2 ++ e.e3 ++ e.e4 ++ e.e5 ++ e.e6 ++ e.e7

/-- Boolean octet from an 8-bit field: element `i` is bit `7-i` (20_memory.md rule R43). -/
def boolOctetOfBus (x : Byte) : Octet Bool :=
  .ofFn fun i => x.getLsbD (7 - i.val)

/-- Boolean octet onto an 8-bit field, element 0 on top, true as 1 (20_memory.md rule R43, 10_state.md rule R20). -/
def boolOctetToBus (o : Octet Bool) : Byte :=
  BitVec.ofBool o.e0 ++ BitVec.ofBool o.e1 ++ BitVec.ofBool o.e2 ++ BitVec.ofBool o.e3 ++
    BitVec.ofBool o.e4 ++ BitVec.ofBool o.e5 ++ BitVec.ofBool o.e6 ++ BitVec.ofBool o.e7

/-- A clean octet: every element is 0 or 1 (00_scope.md section 7). -/
def isClean (e : Octet Byte) : Bool :=
  e.toList.all fun x => x.toNat ≤ 1

end Sys2Proof
end

