-- ==== Sys2Proof/Syntax.lean ====
section
/-! DEFINITION. The commands of CONV_BIT: one constructor per row of spec/opcode_table.json, each with its one
operand at the operand's own type (30_encoding.md rule R57; 20_memory.md rule R47). -/

namespace Sys2Proof

/-- The six operations (00_scope.md rule R3, 30_encoding.md rule R56). The reserved opcodes 6 and 7 name no operation
(30_encoding.md rule R62) and have no constructor. Every value of every operand type is a legal operand, so every
term is well formed; the range checks on operand literals belong to the assembler (`Asm.wellFormed`). -/
inductive Instr where
  /-- Opcode 0, BOOLS2BITS: a boolean octet. -/
  | bools2bits (b : Octet Bool)
  /-- Opcode 1, BITS2BOOLS: an integer octet. -/
  | bits2bools (e : Octet Byte)
  /-- Opcode 2, BITS2BYTE: an integer octet. -/
  | bits2byte (e : Octet Byte)
  /-- Opcode 3, BYTE2BITS: a ByteValue. -/
  | byte2bits (n : Byte)
  /-- Opcode 4, FMTNUM: a 32-bit number. -/
  | fmtnum (d : Decimal)
  /-- Opcode 5, DISPLAY: a 32-bit number. -/
  | display (d : Decimal)
deriving DecidableEq, Repr

end Sys2Proof
end

