-- ==== Sys2Proof/WellFormed.lean ====
section
/-! DEFINITION. The commands as the assembler reads them, with operand literals that may be out of range, and the
check the assembler makes (30_encoding.md rule R66). The operands of `Instr` carry their widths in their types, so
this is where an ill-formed command can be written down at all. -/

namespace Sys2Proof

/-- A line of assembler source: a mnemonic and one operand literal, or `.cmd` and a raw word (30_encoding.md rule
R66). A literal is what was written: a list of any length, a number of any size. -/
inductive Asm where
  | bools2bits (b : List Bool)
  | bits2bools (e : List Nat)
  | bits2byte (e : List Nat)
  | byte2bits (n : Nat)
  | fmtnum (d : Nat)
  | display (d : Nat)
  /-- `.cmd w`: the only way to write an illegal word. -/
  | raw (w : Nat)
deriving DecidableEq, Repr

/-- An integer octet literal: exactly 8 elements, each a number 0 to 255 (30_encoding.md rule R66). -/
def intOctetLiteralOk (e : List Nat) : Bool :=
  e.length == 8 && e.all (· < 256)

/-- The assembler accepts the line: every literal is in the range rule R66 states for its form. -/
def Asm.wellFormed : Asm → Bool
  | .bools2bits b => b.length == 8
  | .bits2bools e => intOctetLiteralOk e
  | .bits2byte e => intOctetLiteralOk e
  | .byte2bits n => n < 256
  | .fmtnum d => d < 4294967296
  | .display d => d < 4294967296
  | .raw w => w < 2 ^ 67

end Sys2Proof
end

