-- ==== Sys2Proof/Decode.lean ====
section
/-! DEFINITION. Command words: the total decoder of 30_encoding.md rule R65, the opcode table of rule R56 as match and
mask rows, the encoder, and the assembler of rule R66 on parsed lines. -/

namespace Sys2Proof

/-- The opcode field `cmd[66:64]` (30_encoding.md rule R55). -/
def opcodeOf (w : CmdWord) : BitVec 3 := w.extractLsb' 64 3

/-- The operand field `cmd[63:0]` (30_encoding.md rule R55). -/
def argOf (w : CmdWord) : Bus := w.extractLsb' 0 64

/-- `arg[63:8]`, reserved for BOOLS2BITS and BYTE2BITS (30_encoding.md rule R63). -/
def reservedAbove8 (arg : Bus) : BitVec 56 := arg.extractLsb' 8 56

/-- `arg[63:32]`, reserved for FMTNUM and DISPLAY (30_encoding.md rule R63). -/
def reservedAbove32 (arg : Bus) : BitVec 32 := arg.extractLsb' 32 32

/-- Decoding, the case list of 30_encoding.md rule R65. `none` is `Illegal`: a reserved opcode (rule R62) or a set
reserved operand bit (rule R63). Operands are taken from `arg` at their own width, with no arithmetic (rule R57). -/
def decode (w : CmdWord) : Option Instr :=
  let arg := argOf w
  match (opcodeOf w).toNat with
  | 0 => if reservedAbove8 arg ≠ 0 then none else some (.bools2bits (boolOctetOfBus (arg.extractLsb' 0 8)))
  | 1 => some (.bits2bools (intOctetOfBus arg))
  | 2 => some (.bits2byte (intOctetOfBus arg))
  | 3 => if reservedAbove8 arg ≠ 0 then none else some (.byte2bits (arg.extractLsb' 0 8))
  | 4 => if reservedAbove32 arg ≠ 0 then none else some (.fmtnum (arg.extractLsb' 0 32))
  | 5 => if reservedAbove32 arg ≠ 0 then none else some (.display (arg.extractLsb' 0 32))
  | _ => none

/-- The word of an operation: the opcode of 30_encoding.md rule R56 over the operand, right-aligned in `arg` (rule
R57), every reserved bit 0. -/
def encode (i : Instr) : CmdWord :=
  match i with
  | .bools2bits b => 0#3 ++ (0#56 ++ boolOctetToBus b : Bus)
  | .bits2bools e => 1#3 ++ intOctetToBus e
  | .bits2byte e => 2#3 ++ intOctetToBus e
  | .byte2bits n => 3#3 ++ (0#56 ++ n : Bus)
  | .fmtnum d => 4#3 ++ (0#32 ++ d : Bus)
  | .display d => 5#3 ++ (0#32 ++ d : Bus)

/-- A row of the opcode table: a word `w` selects the row when `w & mask = match` (30_encoding.md rule R56). -/
structure TableRow where
  mnemonic : String
  pattern  : CmdWord
  mask     : CmdWord
deriving DecidableEq, Repr

/-- The word matches the row (30_encoding.md rule R56). -/
def TableRow.selects (r : TableRow) (w : CmdWord) : Bool := w &&& r.mask == r.pattern

/-- Match and mask of each operation, as 30_encoding.md rule R56 and spec/opcode_table.json print them. -/
def opcodeTable : List TableRow :=
  [ ⟨"BOOLS2BITS", 0x00000000000000000#67, 0x7FFFFFFFFFFFFFF00#67⟩,
    ⟨"BITS2BOOLS", 0x10000000000000000#67, 0x70000000000000000#67⟩,
    ⟨"BITS2BYTE",  0x20000000000000000#67, 0x70000000000000000#67⟩,
    ⟨"BYTE2BITS",  0x30000000000000000#67, 0x7FFFFFFFFFFFFFF00#67⟩,
    ⟨"FMTNUM",     0x40000000000000000#67, 0x7FFFFFFFF00000000#67⟩,
    ⟨"DISPLAY",    0x50000000000000000#67, 0x7FFFFFFFF00000000#67⟩ ]

/-- The table row's mnemonic of an operation (30_encoding.md rule R56). -/
def Instr.mnemonic (i : Instr) : String :=
  match i with
  | .bools2bits _ => "BOOLS2BITS"
  | .bits2bools _ => "BITS2BOOLS"
  | .bits2byte _ => "BITS2BYTE"
  | .byte2bits _ => "BYTE2BITS"
  | .fmtnum _ => "FMTNUM"
  | .display _ => "DISPLAY"

/-- The host's numbering of a word: bits above `nbits` are 0, and a number that needs more than 67 bits is no command
word (30_encoding.md rule R55; log entry 4). -/
def cmdWordOfBits (nbits w : Nat) : Option CmdWord :=
  if w % 2 ^ nbits < 2 ^ 67 then some (BitVec.ofNat 67 (w % 2 ^ nbits)) else none

/-- The instruction the decoder reads from a word given as the opcode table numbers its bits. -/
def decodeTableWord (nbits w : Nat) : Option Instr :=
  (cmdWordOfBits nbits w).bind decode

/-- The integer octet of an eight-number literal, first element first (30_encoding.md rule R66). -/
def intOctetOfList (e : List Nat) : Option (Octet Byte) :=
  match e with
  | [a, b, c, d, e, f, g, h] =>
    some ⟨BitVec.ofNat 8 a, BitVec.ofNat 8 b, BitVec.ofNat 8 c, BitVec.ofNat 8 d,
      BitVec.ofNat 8 e, BitVec.ofNat 8 f, BitVec.ofNat 8 g, BitVec.ofNat 8 h⟩
  | _ => none

/-- The boolean octet of an eight-value literal, first element first (30_encoding.md rule R66). -/
def boolOctetOfList (b : List Bool) : Option (Octet Bool) :=
  match b with
  | [a, b, c, d, e, f, g, h] => some ⟨a, b, c, d, e, f, g, h⟩
  | _ => none

/-- The assembler on one parsed line: a literal out of range is rejected, and only `.cmd` takes a raw word
(30_encoding.md rule R66). -/
def Asm.assemble (a : Asm) : Option CmdWord :=
  if a.wellFormed then
    match a with
    | .bools2bits b => (boolOctetOfList b).map fun o => encode (.bools2bits o)
    | .bits2bools e => (intOctetOfList e).map fun o => encode (.bits2bools o)
    | .bits2byte e => (intOctetOfList e).map fun o => encode (.bits2byte o)
    | .byte2bits n => some (encode (.byte2bits (BitVec.ofNat 8 n)))
    | .fmtnum d => some (encode (.fmtnum (BitVec.ofNat 32 d)))
    | .display d => some (encode (.display (BitVec.ofNat 32 d)))
    | .raw w => some (BitVec.ofNat 67 w)
  else none

/-- An operation written back as a line of assembler source (30_encoding.md rule R66). -/
def Instr.toAsm (i : Instr) : Asm :=
  match i with
  | .bools2bits b => .bools2bits b.toList
  | .bits2bools e => .bits2bools (e.toList.map BitVec.toNat)
  | .bits2byte e => .bits2byte (e.toList.map BitVec.toNat)
  | .byte2bits n => .byte2bits n.toNat
  | .fmtnum d => .fmtnum d.toNat
  | .display d => .display d.toNat

end Sys2Proof
end

