-- ==== Sys2Proof/Config.lean ====
section
/-! DEFINITION. The constants of one build of the block (00_scope.md rules R4 and R5). None is state and none can
change while the block runs (10_state.md rules R32, R34; 70_reset_and_hazards.md rule R162). -/

namespace Sys2Proof

/-- `PAD_POLICY` (00_scope.md rule R4). -/
inductive PadPolicy where
  | padded
  | unpadded
deriving DecidableEq, Repr

/-- The parameters that a build chooses (00_scope.md rule R4). Every block-level operation takes one, so that the
alternatives the spec describes (`STRICT = 1`, `PAD_POLICY = UNPADDED`, any pair of labels) are modelled beside
this hardware. -/
structure Build where
  padPolicy : PadPolicy
  strict    : Bool
  labelDec  : Str
  labelBin  : Str
deriving DecidableEq, Repr

/-- `LABEL_DEC`: OPEN, any fixed finite string, possibly empty (42_binary_formatter.md rule R125). It has no body,
so no proof can see its text (log entry 5). -/
opaque Config.labelDec : Str

/-- `LABEL_BIN`: OPEN, as `LABEL_DEC` (42_binary_formatter.md rule R125; log entry 5). -/
opaque Config.labelBin : Str

/-- This hardware: `PAD_POLICY = PADDED`, `STRICT = 0` (00_scope.md rules R4 and R5), and the two open labels. -/
def Config.build : Build where
  padPolicy := .padded
  strict    := false
  labelDec  := Config.labelDec
  labelBin  := Config.labelBin

/-- `GROUP`: digits per group of the binary string (00_scope.md rule R4). -/
def Config.group : Nat := 4

/-- `SEP`: the underscore, code 0x5F (00_scope.md rule R4; 30_encoding.md rule R60). PRESUMED by the spec itself from
general knowledge (93_implementation_defined.md G1; log entry 6). -/
def Config.sep : Byte := 0x5F#8

/-- The code of the digit 0; the digits 1 to 9 follow it (30_encoding.md rule R60; log entry 6). -/
def Config.digitZero : Byte := 0x30#8

end Sys2Proof
end

