-- ==== Sys2Proof/Machine/State.lean ====
section
/-! DEFINITION. The state. The block's own state record is `Block`, one 8-bit register and nothing else (10_state.md
section 5 and rule R34). `State` has, beside it, the two other rows of 70_reset_and_hazards.md's list of reset values:
the command in progress and the response outstanding (log entry 1). The program is no part of it: it is an argument of a
run (`Machine/Run.lean`). -/

namespace Sys2Proof.Machine

/-- `rsp.status` (30_encoding.md rule R58). Code 3 is never produced and has no name (60_exceptions.md rule R150). -/
inductive Status where
  | ok
  | errIllegal
  | errInvalidInput
deriving DecidableEq, Repr

/-- `rsp.kind`, the InvalidInputKind (30_encoding.md rule R58). `wrongLength` is listed because the source names it and
no build produces it (60_exceptions.md rule R142). Code 3 has no name (60_exceptions.md rule R150). -/
inductive Kind where
  | none
  | wrongLength
  | elementDomain
deriving DecidableEq, Repr

/-- A response (30_encoding.md rule R58). `rsp.str_len` is the exact length of `str` (rule R61), so it is computed
from it (`Response.strLen`). -/
structure Response where
  status : Status
  kind   : Kind
  data   : Bus
  str    : Str
deriving DecidableEq, Repr

/-- What the host may send: a reset request or one command word, and nothing else (60_exceptions.md rule R152). -/
inductive Request where
  | reset
  | command (w : CmdWord)
deriving DecidableEq, Repr

/-- The block's complete architectural state (10_state.md section 5): the accumulator `ACC`, 8 bits, written by
BITS2BYTE only and read by nothing (rules R26, R27). -/
structure Block where
  acc : Byte
deriving DecidableEq, Repr

/-- The block right after reset: `ACC = 0` (70_reset_and_hazards.md rule R160). -/
def Block.reset : Block where
  acc := 0#8

/-- What a step goes from and to: the three rows of the list of reset values in 70_reset_and_hazards.md section 1. The
program, that is, the list of commands, is not here but with the host (10_state.md rules R30, R34), and so are the
responses it has taken. The block's own step, `commandStep`, takes the command as an argument and gives the response as
its output (log entry 1). -/
structure State where
  /-- The block's own state, `ACC`. -/
  block       : Block
  /-- The command in progress, or the reset requested: what the host has issued and the next step serves whole. -/
  inProgress  : Option Request
  /-- The response outstanding: the output of the last step, until the host takes it. -/
  outstanding : Option Response
deriving DecidableEq, Repr

/-- The machine right after reset: `ACC = 0`, no command in progress, no response outstanding
(70_reset_and_hazards.md rule R160). -/
def State.reset : State where
  block       := Block.reset
  inProgress  := none
  outstanding := none

/-- Faults. There is none: the block has no trap, an error is a response, and there is no stuck state
(60_exceptions.md rules R140, R151). The type has no constructor, so that no step can answer one (safe: it adds no
behaviour). -/
inductive Fault : Type
deriving DecidableEq, Repr

/-- Refusals. -/
inductive Refusal where
  /-- Raised by exec's arm of an instruction that has no meaning yet, with its mnemonic; no arm does so now (safe: the
  machine stops). -/
  | notModelled (mnemonic : String)
deriving DecidableEq, Repr

end Sys2Proof.Machine
end

