-- ==== Sys2Proof/Machine/Ops.lean ====
section
/-! DEFINITION. The shared operations: the two ways a command ends (30_encoding.md rules R58, R59; 60_exceptions.md
rule R143), the host's two interactions with the block (60_exceptions.md rule R152), and the response port's string
lanes (30_encoding.md rule R61). The block has no memory (20_memory.md rule R40) and no trap entry or return
(60_exceptions.md rules R147, R148): `raiseError` is all there is of an exception. -/

namespace Sys2Proof.Machine

/-- The errors a command can end in (60_exceptions.md section 2). -/
inductive Error where
  | illegal
  | invalidInput (kind : Kind)
deriving DecidableEq, Repr

/-- `respond OK(data, str)`: the command ends with status `OK`, leaving the block as `k` (00_scope.md section 6,
30_encoding.md rule R59). -/
def respondOk (k : Block) (data : Bus) (str : Str) : Block × Response :=
  (k, { status := .ok, kind := .none, data := data, str := str })

/-- The response of a command that ended in an error: the error's codes, no payload (60_exceptions.md rule R143). -/
def errorResponse (err : Error) : Response :=
  match err with
  | .illegal => { status := .errIllegal, kind := .none, data := 0, str := [] }
  | .invalidInput kd => { status := .errInvalidInput, kind := kd, data := 0, str := [] }

/-- `raise`: an error response and nothing else; the block is unchanged (60_exceptions.md rule R143). -/
def raiseError (err : Error) (k : Block) : Block × Response :=
  (k, errorResponse err)

/-- The end of a command: the block's new state, and the response put out for the host (70_reset_and_hazards.md rule
R165). -/
def deliver (x : Block × Response) (s : State) : State :=
  { s with block := x.1, outstanding := some x.2 }

/-- The request the host has issued, and the state with it taken. -/
def takeRequest (s : State) : Option (Request × State) :=
  match s.inProgress with
  | none => none
  | some r => some (r, { s with inProgress := none })

/-- The reset request: `ACC <- 0` and the block idle, no command in progress and no response outstanding
(70_reset_and_hazards.md rule R160). -/
def performReset (s : State) : State :=
  { s with block := Block.reset, inProgress := none, outstanding := none }

/-- An illegal word: the check is part of decoding and comes before any work (60_exceptions.md rule R141). -/
def answerIllegal (s : State) : State :=
  deliver (raiseError .illegal s.block) s

/-- Nothing requested: the block waits, and nothing changes (70_reset_and_hazards.md rule R161; log entry 2). -/
def waitIdle (s : State) : State := s

/-- The host issues a request: it is the one the next step serves (60_exceptions.md rule R152). -/
def placeRequest (r : Request) (s : State) : State :=
  { s with inProgress := some r }

/-- The host has taken the response outstanding, which it then owns (10_state.md rule R24). -/
def takeResponse (s : State) : State :=
  { s with outstanding := none }

/-- `rsp.str_len` (30_encoding.md rules R58, R61). -/
def Response.strLen (r : Response) : Nat := r.str.length

/-- Character lane `j` of a fixed-width response port: `str[j]`, and 0x00 at and above `str_len` (30_encoding.md rule
R61). -/
def Response.lane (r : Response) (j : Nat) : Byte := r.str.getD j 0x00#8

/-- `STR_MAX`, the longest display string of a build (30_encoding.md rule R58, 42_binary_formatter.md rule R126). -/
def strMax (p : Build) : Nat := p.labelDec.length + 10 + p.labelBin.length + 39

/-- The `STR_MAX` lanes of a fixed-width port (30_encoding.md rule R61). -/
def Response.lanes (p : Build) (r : Response) : List Byte :=
  (List.range (strMax p)).map r.lane

end Sys2Proof.Machine
end

