-- ==== Sys2Proof/Machine/BooleanBit.lean ====
section
/-! DEFINITION. The boolean and bit family, 40_boolean_bit_conversion.md: BOOLS2BITS and BITS2BOOLS. Each operation is
first a step of the block in any build, `Block → Block × Response` (70_reset_and_hazards.md rule R165), and then the
machine's meaning, that step in this hardware's build. -/

namespace Sys2Proof.Machine

/-- The element of a boolean: true as 0x01, false as 0x00 (40_boolean_bit_conversion.md rule R80). -/
def bitOfBool (b : Bool) : Byte := if b then 0x01#8 else 0x00#8

/-- BOOLS2BITS on the block (40_boolean_bit_conversion.md rule R80). -/
def blockBools2bits (b : Octet Bool) (k : Block) : Block × Response :=
  respondOk k (intOctetToBus (b.map bitOfBool)) []

/-- BITS2BOOLS on the block: the whole element is compared with 1 (40_boolean_bit_conversion.md rule R81); with
`STRICT = 1` a dirty octet ends in an error (rule R83). -/
def blockBits2bools (p : Build) (e : Octet Byte) (k : Block) : Block × Response :=
  if p.strict && !isClean e then raiseError (.invalidInput .elementDomain) k
  else respondOk k (0#56 ++ boolOctetToBus (e.map fun x => x == 0x01#8)) []

/-- BOOLS2BITS (40_boolean_bit_conversion.md rule R80). -/
def execBools2bits (b : Octet Bool) (s : State) : Host.Outcome State Fault Refusal :=
  .next (deliver (blockBools2bits b s.block) s)

/-- BITS2BOOLS (40_boolean_bit_conversion.md rule R81). -/
def execBits2bools (e : Octet Byte) (s : State) : Host.Outcome State Fault Refusal :=
  .next (deliver (blockBits2bools Config.build e s.block) s)

end Sys2Proof.Machine
end

