-- ==== Sys2Proof/Machine/Formatter.lean ====
section
/-! DEFINITION. The binary formatter, 42_binary_formatter.md: the data path (minimal digits, padding, grouping), then
FMTNUM and DISPLAY. Strings are lists of the character codes of 30_encoding.md rule R60, leftmost first. -/

namespace Sys2Proof.Machine

/-- The character of a digit 0 to 9 (30_encoding.md rule R60). -/
def digitChar (v : Nat) : Byte := Config.digitZero + BitVec.ofNat 8 v

/-- The character of a bit (42_binary_formatter.md rule R111). -/
def bitChar (b : Bool) : Byte := digitChar b.toNat

/-- The digits `d[m-1], …, d[0]` of `d`, most significant first (42_binary_formatter.md rules R111, R113). -/
def digitsBelow (d : Decimal) (m : Nat) : Str :=
  match m with
  | 0 => []
  | j + 1 => bitChar (d.getLsbD j) :: digitsBelow d j

/-- One more than the index of the highest set bit of `d` below `m`, and 0 if none is set. -/
def lengthBelow (d : Decimal) (m : Nat) : Nat :=
  match m with
  | 0 => 0
  | j + 1 => if d.getLsbD j then j + 1 else lengthBelow d j

/-- The minimal binary digit string, "0" for zero (42_binary_formatter.md rule R111). -/
def minbin (d : Decimal) : Str :=
  if d = 0 then [digitChar 0] else digitsBelow d (lengthBelow d 32)

/-- The padded width of a string of `len` digits (42_binary_formatter.md rule R112). -/
def padWidth (len : Nat) : Nat :=
  if len ≤ 8 then 8 else if len ≤ 16 then 16 else if len ≤ 24 then 24 else 32

/-- The minimal digits with zeros on the left, to the padded width (42_binary_formatter.md rule R113). -/
def pad (d : Decimal) : Str :=
  List.replicate (padWidth (minbin d).length - (minbin d).length) (digitChar 0) ++ minbin d

/-- The rest of a digit string after its first digit, with a separator before each digit that has a multiple of
`GROUP` digits from it to the right end (42_binary_formatter.md rule R115). -/
def groupRest (t : Str) : Str :=
  match t with
  | [] => []
  | c :: rest =>
    if (c :: rest).length % Config.group = 0 then Config.sep :: c :: groupRest rest else c :: groupRest rest

/-- Grouping in fours from the right, never with a leading separator (42_binary_formatter.md rule R115). -/
def group4 (t : Str) : Str :=
  match t with
  | [] => []
  | c :: rest => c :: groupRest rest

/-- The binary string of a number in a build (42_binary_formatter.md rules R117, R118). -/
def fmt (p : Build) (d : Decimal) : Str :=
  match p.padPolicy with
  | .padded => group4 (pad d)
  | .unpadded => group4 (minbin d)

/-- The base-10 numeral of `n`, most significant digit first, as far as `fuel` digits. -/
def decDigits (fuel n : Nat) : Str :=
  match fuel with
  | 0 => []
  | f + 1 => if n < 10 then [digitChar n] else decDigits f (n / 10) ++ [digitChar (n % 10)]

/-- The decimal digits of a number: minimal, "0" for zero (42_binary_formatter.md rule R123). A 32-bit number has at
most 10. -/
def dec (d : Decimal) : Str := decDigits 10 d.toNat

/-- The FormattedNumber constructor: `binary` is a function of `decimal` (42_binary_formatter.md rules R120, R121). -/
def makeFormattedNumber (p : Build) (d : Decimal) : FormattedNumber where
  decimal := d
  binary  := fmt p d

/-- The display-string accessor of a FormattedNumber (42_binary_formatter.md rule R122). -/
def displayForm (p : Build) (r : FormattedNumber) : Str :=
  p.labelDec ++ dec r.decimal ++ p.labelBin ++ r.binary

/-- FMTNUM on the block: the response carries both fields of the record (42_binary_formatter.md rule R120,
30_encoding.md rule R59). -/
def blockFmtnum (p : Build) (d : Decimal) (k : Block) : Block × Response :=
  let r := makeFormattedNumber p d
  respondOk k (0#32 ++ r.decimal) r.binary

/-- DISPLAY on the block: `data = 0` and the display string (42_binary_formatter.md rule R124, 30_encoding.md rule
R59; log entry 7). -/
def blockDisplay (p : Build) (d : Decimal) (k : Block) : Block × Response :=
  respondOk k 0 (displayForm p (makeFormattedNumber p d))

/-- FMTNUM (42_binary_formatter.md rule R120). -/
def execFmtnum (d : Decimal) (s : State) : Host.Outcome State Fault Refusal :=
  .next (deliver (blockFmtnum Config.build d s.block) s)

/-- DISPLAY (42_binary_formatter.md rule R124). -/
def execDisplay (d : Decimal) (s : State) : Host.Outcome State Fault Refusal :=
  .next (deliver (blockDisplay Config.build d s.block) s)

end Sys2Proof.Machine
end

