-- ==== Sys2Proof/Machine/OctetByte.lean ====
section
/-! DEFINITION. The octet and byte family, 41_octet_byte_conversion.md: BITS2BYTE, the bit-packing accumulator, and
BYTE2BITS, the barrel shifter. -/

namespace Sys2Proof.Machine

/-- One step of the accumulator: shift left by one in 8 bits and OR in the element's low bit
(41_octet_byte_conversion.md rules R90, R91). -/
def packStep (a : Byte) (x : Byte) : Byte := (a <<< 1) ||| (x &&& 1#8)

/-- The accumulator value `A_k`, after the first `k` elements, from 0 (41_octet_byte_conversion.md rule R90). The values
`A_1` to `A_7` are inside one command and are never state (10_state.md rule R35). -/
def accAfter (e : Octet Byte) (k : Nat) : Byte := (e.toList.take k).foldl packStep 0#8

/-- BITS2BYTE on the block: `ACC <- A_8`, and the same byte is the result; the old `ACC` is not used
(41_octet_byte_conversion.md rule R90). With `STRICT = 1` a dirty octet ends in an error and `ACC` is not written
(rule R92). -/
def blockBits2byte (p : Build) (e : Octet Byte) (k : Block) : Block × Response :=
  if p.strict && !isClean e then raiseError (.invalidInput .elementDomain) k
  else respondOk { k with acc := accAfter e 8 } (0#56 ++ accAfter e 8) []

/-- The octet of a byte: element `i` is `(n >> (7 - i)) & 1` (41_octet_byte_conversion.md rule R93). -/
def unpackByte (n : Byte) : Octet Byte :=
  .ofFn fun i => (n >>> (7 - i.val)) &&& 1#8

/-- BYTE2BITS on the block (41_octet_byte_conversion.md rule R93). -/
def blockByte2bits (n : Byte) (k : Block) : Block × Response :=
  respondOk k (intOctetToBus (unpackByte n)) []

/-- BITS2BYTE (41_octet_byte_conversion.md rule R90). -/
def execBits2byte (e : Octet Byte) (s : State) : Host.Outcome State Fault Refusal :=
  .next (deliver (blockBits2byte Config.build e s.block) s)

/-- BYTE2BITS (41_octet_byte_conversion.md rule R93). -/
def execByte2bits (n : Byte) (s : State) : Host.Outcome State Fault Refusal :=
  .next (deliver (blockByte2bits n s.block) s)

end Sys2Proof.Machine
end

