-- ==== Sys2Proof/Machine/Dispatch.lean ====
section
/-! DEFINITION. One arm per operation of 30_encoding.md rule R56. -/

namespace Sys2Proof.Machine

/-- The meaning of a decoded command. -/
def exec (i : Instr) (s : State) : Host.Outcome State Fault Refusal :=
  match i with
  | .bools2bits b => Sys2Proof.Machine.execBools2bits b s
  | .bits2bools e => Sys2Proof.Machine.execBits2bools e s
  | .bits2byte e => Sys2Proof.Machine.execBits2byte e s
  | .byte2bits n => Sys2Proof.Machine.execByte2bits n s
  | .fmtnum d => Sys2Proof.Machine.execFmtnum d s
  | .display d => Sys2Proof.Machine.execDisplay d s

end Sys2Proof.Machine
end

