-- ==== Sys2Proof/Machine/Step.lean ====
section
/-! DEFINITION. One step of the machine: the block serves whole the request the host has issued
(70_reset_and_hazards.md rules R164, R165; 60_exceptions.md rule R152). -/

namespace Sys2Proof.Machine

/-- One step. A command word is decoded and executed atomically, or answered `ERR_ILLEGAL`; a reset request resets the
block; with none issued the block waits (log entry 2). -/
def step (s : State) : Host.Outcome State Fault Refusal :=
  match takeRequest s with
  | none => .next (waitIdle s)
  | some (.reset, t) => .next (performReset t)
  | some (.command w, t) =>
    match decode w with
    | some i => exec i t
    | none => .next (answerIllegal t)

/-- `s` with the word `w`, numbered as the opcode table numbers it, issued by the host; a number that is no
67-bit word changes nothing (log entries 3 and 4). -/
def State.withFetchWord (s : State) (nbits w : Nat) : State :=
  match cmdWordOfBits nbits w with
  | some c => placeRequest (.command c) s
  | none => s

end Sys2Proof.Machine
end

