-- ==== Sys2Proof/Machine/Respond.lean ====
section
/-! DEFINITION. The block alone, in any build: the spec's own step `step(state, cmd) = (state', rsp)`
(70_reset_and_hazards.md rule R165), its response function, and a run of requests (rule R169). The machine's step is
this one in the build of this hardware. -/

namespace Sys2Proof.Machine

/-- An operation on the block, in build `p`. -/
def perform (p : Build) (i : Instr) (k : Block) : Block × Response :=
  match i with
  | .bools2bits b => blockBools2bits b k
  | .bits2bools e => blockBits2bools p e k
  | .bits2byte e => blockBits2byte p e k
  | .byte2bits n => blockByte2bits n k
  | .fmtnum d => blockFmtnum p d k
  | .display d => blockDisplay p d k

/-- `step(state, cmd) = (state', rsp)`: decode, then execute or raise `ERR_ILLEGAL` (70_reset_and_hazards.md rule R165,
60_exceptions.md rule R141). -/
def commandStep (p : Build) (k : Block) (w : CmdWord) : Block × Response :=
  match decode w with
  | some i => perform p i k
  | none => raiseError .illegal k

/-- `respond(c)`: the response to a command word (70_reset_and_hazards.md rule R169), read off a block just reset; by
purity any block gives the same (10_state.md rule R28). -/
def respond (p : Build) (w : CmdWord) : Response := (commandStep p Block.reset w).2

/-- One request on the block: the responses it produces, none for a reset (60_exceptions.md rule R152). -/
def serve (p : Build) (k : Block) (r : Request) : Block × List Response :=
  match r with
  | .reset => (Block.reset, [])
  | .command w => ((commandStep p k w).1, [(commandStep p k w).2])

/-- A run of requests in order: the final block and the responses, oldest first (70_reset_and_hazards.md rule R169). -/
def runRequests (p : Build) (k : Block) (rs : List Request) : Block × List Response :=
  match rs with
  | [] => (k, [])
  | r :: rest =>
    let now := serve p k r
    let later := runRequests p now.1 rest
    (later.1, now.2 ++ later.2)

end Sys2Proof.Machine
end

