-- ==== Sys2Proof/Machine/Run.lean ====
section
/-! DEFINITION. A run of the machine (70_reset_and_hazards.md rule R169): the program is an argument, owned by the host,
and the responses are the output (10_state.md rule R34). -/

namespace Sys2Proof.Machine

/-- The host issues the requests of its program in order, each after it has taken the response to the one before
(20_memory.md rule R49); the answer is the final state and the responses taken, oldest first. A reset is a request
without a response (60_exceptions.md rule R152). -/
def runProgram (rs : List Request) (s : State) : Host.Outcome (State × List Response) Fault Refusal :=
  match rs with
  | [] => .next (s, [])
  | r :: rest =>
    match step (placeRequest r s) with
    | .next t =>
      match runProgram rest (takeResponse t) with
      | .next (u, out) => .next (u, t.outstanding.toList ++ out)
      | .fault f => .fault f
      | .refused f => .refused f
    | .fault f => .fault f
    | .refused f => .refused f

end Sys2Proof.Machine
end

