-- ==== Sys2Proof/Machine/Flags.lean ====
section
/-! DEFINITION. What stands in place of flags. The block has no flag register and no condition code (10_state.md rule
R31): the status of a command exists only in its own response, with the codes of 30_encoding.md rule R58. -/

namespace Sys2Proof.Machine

/-- The 2-bit code of `rsp.status` (30_encoding.md rule R58). -/
def statusCode (st : Status) : BitVec 2 :=
  match st with
  | .ok => 0
  | .errIllegal => 1
  | .errInvalidInput => 2

/-- The 2-bit code of `rsp.kind` (30_encoding.md rule R58). -/
def kindCode (kd : Kind) : BitVec 2 :=
  match kd with
  | .none => 0
  | .wrongLength => 1
  | .elementDomain => 2

end Sys2Proof.Machine
end

