-- ==== Sys2Proof/Safety.lean ====
section
/-! DEFINITION. What counts as a safe run: the responses the block may ever give (30_encoding.md rule R58,
60_exceptions.md section 2). -/

namespace Sys2Proof.Machine

/-- The response has one of the shapes of 60_exceptions.md section 2 in build `p`: `OK` with kind 0 and a string of at
most `STR_MAX` characters, or an error with no payload (rule R143); kind 0 unless the status is `ERR_INVALID_INPUT`,
which only a strict build gives, and then the kind is `ELEMENT_DOMAIN` (rule R142). -/
def Response.legal (p : Build) (r : Response) : Bool :=
  match r.status with
  | .ok => r.kind == .none && r.strLen ≤ strMax p
  | .errIllegal => r.kind == .none && r.data == 0 && r.str == []
  | .errInvalidInput => p.strict && r.kind == .elementDomain && r.data == 0 && r.str == []

/-- The response outstanding, if there is one, is one the block may give. -/
def OutstandingLegal (p : Build) (s : State) : Prop := ∀ r, s.outstanding = some r → r.legal p = true

/-- A step ends in a next state: neither a fault nor a refusal (60_exceptions.md rule R151). -/
def StepsOn (s : State) : Prop := ∃ t, step s = .next t

end Sys2Proof.Machine
end

