-- ==== Sys2Proof/Certificates/Slice0/Obligations.lean ====
section
/-! DEFINITION. The statements for the provers. Each docstring names the rule of spec/ it formalises. "This hardware" is
the build `Config.build` (`PAD_POLICY = PADDED`, `STRICT = 0`, labels without a body); a statement over `p : Build`
holds for every build of the spec. -/

open Sys2Proof Sys2Proof.Machine

-- ## Command words

/-- Operands are taken from `arg` at their own width (30_encoding.md rule R57; the bus layouts are the spec's decisions
D8, D9, D13). -/
def Obligations.OperandsComeFromTheirFields : Prop :=
  ∀ arg : Bus,
    (arg.extractLsb' 8 56 = 0 →
      ∃ b, decode (0#3 ++ arg) = some (.bools2bits b) ∧ (∀ i : Fin 8, b.get i = arg.getLsbD (7 - i.val)) ∧
        decode (3#3 ++ arg) = some (.byte2bits (arg.extractLsb' 0 8))) ∧
    (∃ e, decode (1#3 ++ arg) = some (.bits2bools e) ∧ decode (2#3 ++ arg) = some (.bits2byte e) ∧
      ∀ i : Fin 8, e.get i = arg.extractLsb' (56 - 8 * i.val) 8) ∧
    (arg.extractLsb' 32 32 = 0 →
      decode (4#3 ++ arg) = some (.fmtnum (arg.extractLsb' 0 32)) ∧
      decode (5#3 ++ arg) = some (.display (arg.extractLsb' 0 32)))

/-- A command with opcode 6 or 7 is answered `ERR_ILLEGAL`, whatever `arg` holds, and changes nothing (30_encoding.md
rule R62, the spec's decision D14). -/
def Obligations.ReservedOpcodesAreAnsweredIllegal : Prop :=
  ∀ (s : State) (op : BitVec 3) (arg : Bus),
    6 ≤ op.toNat → s.inProgress = some (.command (op ++ arg)) →
    step s = .next { s with inProgress := none, outstanding := some ⟨.errIllegal, .none, 0, []⟩ }

/-- A command with a reserved operand bit set is answered `ERR_ILLEGAL` and changes nothing; nothing is truncated
(30_encoding.md rule R63, the spec's decision D14). -/
def Obligations.SetReservedBitsAreAnsweredIllegal : Prop :=
  ∀ (s : State) (op : BitVec 3) (arg : Bus),
    ((op = 0 ∨ op = 3) ∧ arg.extractLsb' 8 56 ≠ 0) ∨ ((op = 4 ∨ op = 5) ∧ arg.extractLsb' 32 32 ≠ 0) →
    s.inProgress = some (.command (op ++ arg)) →
    step s = .next { s with inProgress := none, outstanding := some ⟨.errIllegal, .none, 0, []⟩ }

/-- Every 67-bit word either matches no row of the opcode table and is illegal, or matches exactly one row, and that row
is the operation it decodes to (30_encoding.md sections 2 and 5). -/
def Obligations.EachWordSelectsAtMostOneRow : Prop :=
  ∀ w : CmdWord,
    (decode w = none ∧ ∀ r ∈ opcodeTable, r.selects w = false) ∨
    (∃ i r, decode w = some i ∧ r ∈ opcodeTable ∧ r.mnemonic = i.mnemonic ∧
      ∀ q ∈ opcodeTable, q.selects w = true ↔ q = r)

/-- Decoding an operation's word gives the operation, with every operand at every value. -/
def Obligations.DecodeOfEncodeIsTheOperation : Prop :=
  ∀ i : Instr, decode (encode i) = some i

/-- A legal word has one meaning, and no bit of it is dropped: it is the word of what it decodes to. -/
def Obligations.EncodeOfDecodeIsTheWord : Prop :=
  ∀ (w : CmdWord) (i : Instr), decode w = some i → encode i = w

/-- Words written out from the spec's encodings (95_test_vectors.md section 1). -/
def Obligations.SampleWordsDecode : Prop :=
  decode 0x00000000000000069#67 = some (.bools2bits ⟨false, true, true, false, true, false, false, true⟩) ∧
  decode 0x100010203FF010001#67 = some (.bits2bools ⟨0, 1, 2, 3, 255, 1, 0, 1⟩) ∧
  decode 0x20001010001000001#67 = some (.bits2byte ⟨0, 1, 1, 0, 1, 0, 0, 1⟩) ∧
  decode 0x3000000000000004F#67 = some (.byte2bits 79) ∧
  decode 0x4000000000000BEEF#67 = some (.fmtnum 48879) ∧
  decode 0x50000000000000069#67 = some (.display 105) ∧
  decode 0x30000000000000100#67 = none ∧ decode 0x60000000000000000#67 = none

/-- The assembler accepts exactly the literals in range, its words are the operations' words, `.cmd` gives the raw word
itself for every number of at most 67 bits and nothing for a larger one, and only `.cmd` writes an illegal word
(30_encoding.md section 6, the spec's decision D15). -/
def Obligations.AssemblerAcceptsExactlyTheRanges : Prop :=
  (∀ b : List Bool, (Asm.bools2bits b).assemble.isSome ↔ b.length = 8) ∧
  (∀ e : List Nat, (Asm.bits2bools e).assemble.isSome ↔ e.length = 8 ∧ ∀ x ∈ e, x ≤ 255) ∧
  (∀ e : List Nat, (Asm.bits2byte e).assemble.isSome ↔ e.length = 8 ∧ ∀ x ∈ e, x ≤ 255) ∧
  (∀ n : Nat, (Asm.byte2bits n).assemble.isSome ↔ n ≤ 255) ∧
  (∀ d : Nat, (Asm.fmtnum d).assemble.isSome ↔ d ≤ 4294967295) ∧
  (∀ d : Nat, (Asm.display d).assemble.isSome ↔ d ≤ 4294967295) ∧
  (∀ n : Nat, ((Asm.raw n).assemble.isSome ↔ n < 2 ^ 67) ∧
    (n < 2 ^ 67 → (Asm.raw n).assemble = some (BitVec.ofNat 67 n))) ∧
  (∀ i : Instr, i.toAsm.assemble = some (encode i)) ∧
  (∀ (a : Asm) (w : CmdWord), a.assemble = some w → (decode w).isSome ∨ ∃ n, a = .raw n)

-- ## The six operations

/-- BOOLS2BITS: each boolean element becomes 0x01 or 0x00 in the lane of the same index; nothing else changes
(40_boolean_bit_conversion.md rule R80; the lanes are the spec's decisions D8 and D9). -/
def Obligations.Bools2bitsMapsEachBoolean : Prop :=
  ∀ (b : Octet Bool) (s : State),
    ((encode (.bools2bits b)).extractLsb' 64 3 = 0 ∧ (encode (.bools2bits b)).extractLsb' 8 56 = 0 ∧
      ∀ i : Fin 8, (encode (.bools2bits b)).getLsbD (7 - i.val) = b.get i) ∧
    ∃ w : Bus,
      exec (.bools2bits b) s = .next { s with outstanding := some ⟨.ok, .none, w, []⟩ } ∧
      ∀ i : Fin 8, w.extractLsb' (56 - 8 * i.val) 8 = if b.get i then 0x01#8 else 0x00#8

/-- BITS2BOOLS in this hardware: an element is true exactly when the whole 8-bit element equals 1; nothing else changes
(40_boolean_bit_conversion.md rule R81; the lanes are the spec's decisions D8 and D9). -/
def Obligations.Bits2boolsComparesWithOne : Prop :=
  ∀ (e : Octet Byte) (s : State),
    ((encode (.bits2bools e)).extractLsb' 64 3 = 1 ∧
      ∀ i : Fin 8, (encode (.bits2bools e)).extractLsb' (56 - 8 * i.val) 8 = e.get i) ∧
    ∃ x : Byte,
      exec (.bits2bools e) s = .next { s with outstanding := some ⟨.ok, .none, 0#56 ++ x, []⟩ } ∧
      ∀ i : Fin 8, x.getLsbD (7 - i.val) = true ↔ e.get i = 1

/-- BITS2BYTE in this hardware: `A_0 = 0`, each step shifts left by one in 8 bits and ORs in the low bit of the next
element, and `A_8` is both the result and the new `ACC`; the old `ACC` is not used and nothing else changes
(41_octet_byte_conversion.md rule R90). -/
def Obligations.Bits2byteShiftsAndOrsEightTimes : Prop :=
  ∀ (e : Octet Byte) (s : State),
    ((encode (.bits2byte e)).extractLsb' 64 3 = 2 ∧
      ∀ i : Fin 8, (encode (.bits2byte e)).extractLsb' (56 - 8 * i.val) 8 = e.get i) ∧
    ∃ a : Nat → Byte,
      a 0 = 0 ∧ (∀ k : Fin 8, a (k.val + 1) = (a k.val <<< 1) ||| (e.get k &&& 1)) ∧
      exec (.bits2byte e) s =
        .next { s with block := { acc := a 8 }, outstanding := some ⟨.ok, .none, 0#56 ++ a 8, []⟩ }

/-- BYTE2BITS: element `i` is `(n >> (7-i)) & 1`; nothing else changes (41_octet_byte_conversion.md rule R93; the lanes
are the spec's decision D8). -/
def Obligations.Byte2bitsShiftsAndMasks : Prop :=
  ∀ (n : Byte) (s : State),
    ((encode (.byte2bits n)).extractLsb' 64 3 = 3 ∧ (encode (.byte2bits n)).extractLsb' 8 56 = 0 ∧
      (encode (.byte2bits n)).extractLsb' 0 8 = n) ∧
    ∃ w : Bus,
      exec (.byte2bits n) s = .next { s with outstanding := some ⟨.ok, .none, w, []⟩ } ∧
      ∀ i : Fin 8, w.extractLsb' (56 - 8 * i.val) 8 = (n >>> (7 - i.val)) &&& 1

/-- FMTNUM answers both fields of the record, `decimal` and `fmt(decimal)`; nothing else changes
(42_binary_formatter.md rule R120). -/
def Obligations.FmtnumAnswersTheRecord : Prop :=
  ∀ (d : Decimal) (s : State),
    ((encode (.fmtnum d)).extractLsb' 64 3 = 4 ∧ (encode (.fmtnum d)).extractLsb' 32 32 = 0 ∧
      (encode (.fmtnum d)).extractLsb' 0 32 = d) ∧
    exec (.fmtnum d) s =
      .next { s with outstanding := some ⟨.ok, .none, 0#32 ++ d, fmt Config.build d⟩ }

/-- DISPLAY answers `LABEL_DEC ++ dec(d) ++ LABEL_BIN ++ fmt(d)` with `data = 0`, for the labels without a body; nothing
else changes. The display form of the record is the same string in every build (42_binary_formatter.md rules R122
and R124, the spec's decisions D24 and D26). -/
def Obligations.DisplayAnswersTheDisplayForm : Prop :=
  (∀ (p : Build) (d : Decimal),
    displayForm p (makeFormattedNumber p d) = p.labelDec ++ dec d ++ p.labelBin ++ fmt p d) ∧
  ∀ (d : Decimal) (s : State),
    ((encode (.display d)).extractLsb' 64 3 = 5 ∧ (encode (.display d)).extractLsb' 32 32 = 0 ∧
      (encode (.display d)).extractLsb' 0 32 = d) ∧
    exec (.display d) s =
      .next { s with outstanding := some ⟨.ok, .none, 0,
                       Config.labelDec ++ dec d ++ Config.labelBin ++ fmt Config.build d⟩ }

/-- Every operation of this hardware completes from every state, with one `OK` response (60_exceptions.md section 6). -/
def Obligations.EveryOperationCompletes : Prop :=
  ∀ (i : Instr) (s : State), ∃ (k : Block) (d : Bus) (u : Str),
    exec i s = .next { s with block := k, outstanding := some ⟨.ok, .none, d, u⟩ }

/-- The frame: an operation issues and takes no request, puts out exactly one response, and only BITS2BYTE changes the
block (10_state.md section 2). -/
def Obligations.OperationsKeepTheRest : Prop :=
  ∀ (i : Instr) (s t : State), exec i s = .next t →
    t.inProgress = s.inProgress ∧ (∃ r, t.outstanding = some r) ∧
    ((∀ e, i ≠ .bits2byte e) → t.block = s.block)

-- ## Laws of the conversions

/-- Result element `i` depends on operand element `i` only, by the same function in every lane and at the same index
(40_boolean_bit_conversion.md rule R84). -/
def Obligations.LanesAreIndependent : Prop :=
  (∃ f : Bool → Byte, ∀ (b : Octet Bool) (i : Fin 8),
    (respond Config.build (encode (.bools2bits b))).data.extractLsb' (56 - 8 * i.val) 8 = f (b.get i)) ∧
  (∃ g : Byte → Bool, ∀ (e : Octet Byte) (i : Fin 8),
    (respond Config.build (encode (.bits2bools e))).data.getLsbD (7 - i.val) = g (e.get i))

/-- BITS2BOOLS undoes BOOLS2BITS; in the other direction every element that is not 1 is replaced by 0, so a clean octet
comes back (40_boolean_bit_conversion.md, Laws of the family; the second half is the spec's own inference). -/
def Obligations.BooleanDuality : Prop :=
  (∀ x : Byte, (respond Config.build (1#3 ++ (respond Config.build (0#3 ++ (0#56 ++ x : Bus))).data)).data =
    0#56 ++ x) ∧
  (∀ (w : Bus) (i : Fin 8),
    (respond Config.build (0#3 ++ (respond Config.build (1#3 ++ w)).data)).data.extractLsb' (56 - 8 * i.val) 8 =
      if w.extractLsb' (56 - 8 * i.val) 8 = 1 then 0x01#8 else 0x00#8)

/-- Packing the octet that a byte unpacks to gives the byte (41_octet_byte_conversion.md rule R94). -/
def Obligations.UnpackThenPackIsTheByte : Prop :=
  ∀ x : Byte, (respond Config.build (2#3 ++ (respond Config.build (3#3 ++ (0#56 ++ x : Bus))).data)).data = 0#56 ++ x

/-- Unpacking the byte that an octet packs to gives the octet with every element replaced by its low bit, so a clean
octet comes back (41_octet_byte_conversion.md, Laws of the family; the dirty half is the spec's own inference). -/
def Obligations.PackThenUnpackKeepsLowBits : Prop :=
  ∀ (w : Bus) (i : Fin 8),
    (respond Config.build (3#3 ++ (respond Config.build (2#3 ++ w)).data)).data.extractLsb' (56 - 8 * i.val) 8 =
      w.extractLsb' (56 - 8 * i.val) 8 &&& 1

/-- BITS2BYTE does the same, `ACC` included, on an octet and on the octet of its elements' low bits; in particular 2 and
254 count as 0, and 3 and 255 as 1 (41_octet_byte_conversion.md rule R91, the spec's decision D20). -/
def Obligations.OnlyLowBitsArePacked : Prop :=
  (∀ (e : Octet Byte) (s : State), exec (.bits2byte e) s = exec (.bits2byte (e.map fun x => x &&& 1)) s) ∧
  (∀ (e f : Octet Byte) (s : State), exec (.bits2byte e) s = exec (.bits2byte f) s ↔
    ∀ i, e.get i &&& 1 = f.get i &&& 1)

/-- After `k` steps the accumulator is the number of the first `k` low bits, less than `2^k`, so the shift never loses a
bit; bit `7-i` of the result is the low bit of element `i` (41_octet_byte_conversion.md, Laws of the family; the
spec's own inference). -/
def Obligations.AccumulatorClosedForm : Prop :=
  ∀ e : Octet Byte,
    (∀ k : Fin 9, (accAfter e k.val).toNat =
        ((List.range k.val).map fun i => ((e.toList.getD i 0).toNat % 2) * 2 ^ (k.val - 1 - i)).sum ∧
      (accAfter e k.val).toNat < 2 ^ k.val) ∧
    (∀ i : Fin 8, (accAfter e 8).getLsbD (7 - i.val) = (e.get i).getLsbD 0)

/-- BYTE2BITS and BOOLS2BITS answer the same data for the same `arg[7:0]`, and BITS2BOOLS and BITS2BYTE the same data on
every clean octet (41_octet_byte_conversion.md, Laws of the family; the spec's own inference). -/
def Obligations.TwinOperationsAgreeOnTheBus : Prop :=
  (∀ x : Byte, respond Config.build (3#3 ++ (0#56 ++ x : Bus)) = respond Config.build (0#3 ++ (0#56 ++ x : Bus))) ∧
  (∀ e : Octet Byte, (∀ i, (e.get i).toNat ≤ 1) →
    respond Config.build (encode (.bits2byte e)) = respond Config.build (encode (.bits2bools e)))

-- ## The formatter

/-- `minbin`: "0" for zero; otherwise the `L` digits of `d` from bit `L-1` down, where `2^(L-1) <= d < 2^L` and `L` is at
most 32, beginning with 1 (42_binary_formatter.md rule R111). -/
def Obligations.MinimalBinaryDigits : Prop :=
  minbin 0 = [digitChar 0] ∧
  ∀ d : Decimal, d ≠ 0 → ∃ len : Nat, 1 ≤ len ∧ len ≤ 32 ∧ 2 ^ (len - 1) ≤ d.toNat ∧ d.toNat < 2 ^ len ∧
    (minbin d).length = len ∧ (minbin d).head? = some (digitChar 1) ∧
    ∀ j, j < len → (minbin d)[j]? = some (bitChar (d.getLsbD (len - 1 - j)))

/-- The padded string is `d` as a `W`-bit number, most significant bit first, and `W` is 8, 16, 24 or 32 by the size of
`d` (42_binary_formatter.md section 1; the spec's own inference). -/
def Obligations.PaddedDigitsAreTheNumberAtItsWidth : Prop :=
  ∀ d : Decimal, ∃ w : Nat,
    w = (if d.toNat < 256 then 8 else if d.toNat < 65536 then 16 else if d.toNat < 16777216 then 24 else 32) ∧
    (pad d).length = w ∧ ∀ j, j < w → (pad d)[j]? = some (bitChar (d.getLsbD (w - 1 - j)))

/-- `group4`, as the rule's loop over digit positions writes it: a separator before digit `j` exactly when `j >= 1` and a
multiple of 4 digits remains from `j` to the right end (42_binary_formatter.md rule R115). -/
def Obligations.GroupingCountsFromTheRight : Prop :=
  ∀ t : Str, group4 t = (List.range t.length).flatMap fun j =>
    if 1 ≤ j ∧ (t.length - j) % 4 = 0 then [Config.sep, t.getD j 0] else [t.getD j 0]

/-- The shape of a grouped string of digits: its length, no separator at either end, never two side by side, and the
digits in order (42_binary_formatter.md section 1; the spec's own inference). -/
def Obligations.GroupedStringShape : Prop :=
  ∀ t : Str, t ≠ [] → Config.sep ∉ t →
    (group4 t).length = t.length + (t.length - 1) / 4 ∧
    (group4 t).head? ≠ some Config.sep ∧ (group4 t).getLast? ≠ some Config.sep ∧
    (∀ j, ¬((group4 t)[j]? = some Config.sep ∧ (group4 t)[j + 1]? = some Config.sep)) ∧
    (group4 t).filter (· ≠ Config.sep) = t

/-- The string of this hardware, character by character: an underscore where `c mod 5 = 4`, otherwise the digit of bit
`W - 1 - (c - c div 5)` (42_binary_formatter.md section 1; the spec's own inference). -/
def Obligations.PaddedStringClosedForm : Prop :=
  ∀ d : Decimal, ∃ w : Nat,
    w = (if d.toNat < 256 then 8 else if d.toNat < 65536 then 16 else if d.toNat < 16777216 then 24 else 32) ∧
    (fmt Config.build d).length = w + w / 4 - 1 ∧
    ∀ c, c < w + w / 4 - 1 → (fmt Config.build d)[c]? =
      some (if c % 5 = 4 then Config.sep else bitChar (d.getLsbD (w - 1 - (c - c / 5))))

/-- An unpadded build groups the minimal digits and does nothing else; the length is `L + (L-1) div 4`, from 1 to 39
(42_binary_formatter.md rule R117). -/
def Obligations.UnpaddedBuildGroupsTheMinimalDigits : Prop :=
  ∀ (p : Build) (d : Decimal), p.padPolicy = .unpadded →
    fmt p d = group4 (minbin d) ∧
    (fmt p d).length = (minbin d).length + ((minbin d).length - 1) / 4 ∧
    1 ≤ (fmt p d).length ∧ (fmt p d).length ≤ 39

/-- `dec`: the recursion of the rule, "0" for zero, 1 to 10 digits, no leading zero, and the digits read back in base 10
are the number (42_binary_formatter.md section 3, the spec's decision D25). The read-back clause uses the digits' codes,
which are PRESUMED (log entry 6). -/
def Obligations.DecimalNumeralIsMinimal : Prop :=
  ∀ d : Decimal,
    dec d = (if d.toNat < 10 then [digitChar d.toNat]
      else dec (BitVec.ofNat 32 (d.toNat / 10)) ++ [digitChar (d.toNat % 10)]) ∧
    1 ≤ (dec d).length ∧ (dec d).length ≤ 10 ∧
    (d ≠ 0 → (dec d).head? ≠ some (digitChar 0)) ∧
    (dec d).foldl (fun a c => a * 10 + (c.toNat - 0x30)) 0 = d.toNat

/-- The length of the display string in any build, its bound `STR_MAX`, and that the bound is reached
(42_binary_formatter.md section 3; the spec's own inference). -/
def Obligations.DisplayLengthIsBounded : Prop :=
  ∀ p : Build,
    (∀ d : Decimal, (displayForm p (makeFormattedNumber p d)).length =
        p.labelDec.length + (dec d).length + p.labelBin.length + (fmt p d).length ∧
      (displayForm p (makeFormattedNumber p d)).length ≤ strMax p) ∧
    (displayForm p (makeFormattedNumber p 4294967295)).length = strMax p

/-- Without its separators the string of a number reads back as the number, in any build, so different numbers have
different strings (42_binary_formatter.md section 4; the spec's own inference; the digits are read back by their
codes, log entry 6). -/
def Obligations.StringDeterminesTheNumber : Prop :=
  ∀ (p : Build) (d : Decimal),
    ((fmt p d).filter (· ≠ Config.sep)).foldl (fun a c => a * 2 + (c.toNat - 0x30)) 0 = d.toNat ∧
    ∀ d' : Decimal, fmt p d = fmt p d' → d = d'

-- ## Errors

/-- A word is answered `ERR_ILLEGAL` exactly when its opcode is 6 or 7 or a reserved bit of its operand field is set, in
every build (60_exceptions.md rule R141, the spec's decision D14). -/
def Obligations.IllegalExactlyWhenReserved : Prop :=
  ∀ (p : Build) (k : Block) (w : CmdWord),
    (commandStep p k w).2.status = .errIllegal ↔
      6 ≤ (w.extractLsb' 64 3).toNat ∨
      ((w.extractLsb' 64 3 = 0 ∨ w.extractLsb' 64 3 = 3) ∧ w.extractLsb' 8 56 ≠ 0) ∨
      ((w.extractLsb' 64 3 = 4 ∨ w.extractLsb' 64 3 = 5) ∧ w.extractLsb' 32 32 ≠ 0)

/-- A command that ends in an error leaves the block as it was, and its response has the error's kind, no data and no
string, in every build; the next command is answered as if the failed one had not been issued (60_exceptions.md rule
R143, the spec's decision D16). -/
def Obligations.ErrorsChangeNothing : Prop :=
  ∀ (p : Build) (k : Block) (w : CmdWord), (commandStep p k w).2.status ≠ .ok →
    (commandStep p k w).1 = k ∧ (commandStep p k w).2.data = 0 ∧ (commandStep p k w).2.strLen = 0 ∧
    ((commandStep p k w).2.status = .errIllegal → (commandStep p k w).2.kind = .none) ∧
    ((commandStep p k w).2.status = .errInvalidInput → (commandStep p k w).2.kind = .elementDomain) ∧
    ∀ w', commandStep p (commandStep p k w).1 w' = commandStep p k w'

/-- `ERR_INVALID_INPUT` comes exactly from BITS2BOOLS and BITS2BYTE on an octet with an element above 1 in a strict
build, always with `ELEMENT_DOMAIN`; otherwise a strict build answers and leaves `ACC` as the lenient build does;
this hardware never produces it, and no build produces `WRONG_LENGTH` (60_exceptions.md rule R142,
40_boolean_bit_conversion.md rule R83, 41_octet_byte_conversion.md rule R92; the spec's decision D20). -/
def Obligations.StrictBuildsRejectDirtyOctets : Prop :=
  ∀ (p : Build) (k : Block) (w : CmdWord),
    ((commandStep p k w).2.status = .errInvalidInput ↔
      p.strict = true ∧ (w.extractLsb' 64 3 = 1 ∨ w.extractLsb' 64 3 = 2) ∧
      ∃ i : Fin 8, 1 < (w.extractLsb' (56 - 8 * i.val) 8).toNat) ∧
    ((commandStep p k w).2.status = .errInvalidInput →
      commandStep p k w = (k, ⟨.errInvalidInput, .elementDomain, 0, []⟩)) ∧
    ((commandStep p k w).2.status ≠ .errInvalidInput →
      commandStep p k w = commandStep { p with strict := false } k w) ∧
    (commandStep Config.build k w).2.status ≠ .errInvalidInput ∧
    (commandStep p k w).2.kind ≠ .wrongLength

/-- The codes of `rsp.status` and `rsp.kind`; 3 is not among them (60_exceptions.md rule R150, with the codes of
30_encoding.md section 4; the spec's decision D27). -/
def Obligations.CodeThreeIsNeverProduced : Prop :=
  (statusCode .ok = 0 ∧ statusCode .errIllegal = 1 ∧ statusCode .errInvalidInput = 2 ∧
    ∀ st, statusCode st ≠ 3) ∧
  (kindCode .none = 0 ∧ kindCode .wrongLength = 1 ∧ kindCode .elementDomain = 2 ∧ ∀ kd, kindCode kd ≠ 3)

/-- String transport: a fixed-width port has `STR_MAX` lanes and its lane `j` carries `str[j]` below `str_len` and 0x00 at
and above it; a string result holds the code 0x00 only if a label does (30_encoding.md rule R61, the spec's decision
D23). The last clause is the rule's own sentence and is true because the codes of the digits and of the separator, log
entry 6, are not 0x00. -/
def Obligations.StringLanesOfThePort : Prop :=
  (∀ (p : Build) (r : Response), (r.lanes p).length = strMax p ∧
    ∀ j, j < strMax p → (r.lanes p)[j]? = some (r.lane j)) ∧
  (∀ (r : Response) (j : Nat),
    (∀ c, r.str[j]? = some c → j < r.strLen ∧ r.lane j = c) ∧ (r.strLen ≤ j → r.lane j = 0x00#8)) ∧
  (∀ (p : Build) (w : CmdWord), 0x00#8 ∈ (respond p w).str → 0x00#8 ∈ p.labelDec ∨ 0x00#8 ∈ p.labelBin)

-- ## Steps, runs and reset

/-- A step on a word that decodes runs the decoded operation on the state with that request taken. -/
def Obligations.StepRunsTheDecodedOperation : Prop :=
  ∀ (s : State) (w : CmdWord) (i : Instr),
    s.inProgress = some (.command w) → decode w = some i →
    step s = exec i { s with inProgress := none }

/-- A word placed for the next step is the operation's own word, read and run by it: placing and stepping is executing,
with nothing else touched (log entries 3 and 4, the model's own). -/
def Obligations.PlacedWordRunsNext : Prop :=
  ∀ (i : Instr) (s : State),
    decodeTableWord 67 (encode i).toNat = some i ∧
    step (s.withFetchWord 67 (encode i).toNat) = exec i { s with inProgress := none }

/-- The model's step is the spec's `step(state, cmd) = (state', rsp)`, one step per command: the command is no longer in
progress, the block has changed to `state'`, and `rsp` is outstanding (70_reset_and_hazards.md rule R165, the spec's
decision D2). -/
def Obligations.OneStepPerCommand : Prop :=
  ∀ (s : State) (w : CmdWord), s.inProgress = some (.command w) →
    step s = .next ⟨(commandStep Config.build s.block w).1, none, some (commandStep Config.build s.block w).2⟩

/-- Every command word has its step and its one response: `OK` for a legal word, `ERR_ILLEGAL` for an illegal one; and no
state at all ends in a fault or a refusal (60_exceptions.md section 6; the spec's own inference, and log entry 2 for
a state with no request). -/
def Obligations.EveryCommandIsAnswered : Prop :=
  (∀ s : State, StepsOn s) ∧
  ∀ (s : State) (w : CmdWord), s.inProgress = some (.command w) →
    ∃ (k : Block) (r : Response), step s = .next ⟨k, none, some r⟩ ∧
      r.status = if (decode w).isSome then .ok else .errIllegal

/-- With no request the block waits: the step changes nothing (the model's choice, log entry 2). -/
def Obligations.IdleBlockWaits : Prop :=
  ∀ s : State, s.inProgress = none → step s = .next s

/-- Reset sets `ACC` to 0 and leaves no command in progress and no response outstanding, and so is the machine right after
reset (70_reset_and_hazards.md rule R160, the spec's decision D18). -/
def Obligations.ResetClearsTheAccumulator : Prop :=
  (∀ s : State, s.inProgress = some .reset → step s = .next ⟨{ acc := 0 }, none, none⟩) ∧
  State.reset = ⟨{ acc := 0 }, none, none⟩

/-- `ACC` changes in no command but BITS2BYTE, after that command it holds the byte the response carries, and no command's
response reads it (10_state.md rule R26, the spec's decision D6). -/
def Obligations.OnlyBits2byteWritesAcc : Prop :=
  ∀ (s t : State) (w : CmdWord),
    s.inProgress = some (.command w) → step s = .next t →
    ((∀ e, decode w ≠ some (.bits2byte e)) → t.block.acc = s.block.acc) ∧
    (∀ e, decode w = some (.bits2byte e) → t.outstanding = some ⟨.ok, .none, 0#56 ++ t.block.acc, []⟩) ∧
    (∀ k : Block, (commandStep Config.build k w).2 = (commandStep Config.build s.block w).2)

/-- Purity: the response to a command is a function of its word and of the build, whatever the block holds and whatever
was answered before; whole runs from two different blocks give the same responses (10_state.md rule R28). -/
def Obligations.ResponsesDependOnTheWordAlone : Prop :=
  ∀ p : Build,
    (∀ (k : Block) (w : CmdWord), (commandStep p k w).2 = respond p w) ∧
    (∀ (k k' : Block) (rs : List Request), (runRequests p k rs).2 = (runRequests p k' rs).2)

/-- What `ACC` holds is invisible: two states that differ in it only step to states that differ in it at most, with the
same response (10_state.md section 2; the spec's own inference). -/
def Obligations.AccIsNeverObserved : Prop :=
  ∀ (s : State) (k : Block), ∃ t u, step s = .next t ∧ step { s with block := k } = .next u ∧
    u.inProgress = t.inProgress ∧ u.outstanding = t.outstanding

/-- The program and the responses are not the block's state: serving a request does not depend on the response outstanding
before, and in a run what follows a request in the program does not change how the machine serves it, so that a run of
one program and then another is the run of the two put together (10_state.md section 4; the spec's own inference). -/
def Obligations.ProgramAndResponsesAreNotState : Prop :=
  (∀ (s : State) (r : Option Response), s.inProgress ≠ none → step { s with outstanding := r } = step s) ∧
  (∀ (before after : List Request) (s : State), ∃ (t u : State) (out₁ out₂ : List Response),
    runProgram before s = .next (t, out₁) ∧ runProgram after t = .next (u, out₂) ∧
    runProgram (before ++ after) s = .next (u, out₁ ++ out₂))

/-- Reset is never needed for correct responses: leaving every reset out of a run, from any block, changes no response
(70_reset_and_hazards.md section 2; the spec's own inference). -/
def Obligations.ResetsChangeNoResponse : Prop :=
  ∀ (p : Build) (k k' : Block) (rs : List Request),
    (runRequests p k rs).2 = (runRequests p k' (rs.filter (· ≠ .reset))).2

/-- A run of the machine serves its program to the end, from every state: the `k`-th response is the response to the
`k`-th command, the block ends as the spec's own run leaves it, and nothing is left in flight
(70_reset_and_hazards.md section 5, 20_memory.md section 5; the spec's own inference). -/
def Obligations.RunAnswersEachCommandInOrder : Prop :=
  ∀ (rs : List Request) (s : State), ∃ t : State,
    runProgram rs s = .next (t,
      rs.filterMap fun r => match r with | .reset => none | .command w => some (respond Config.build w)) ∧
    t.block = (runRequests Config.build s.block rs).1 ∧
    (rs ≠ [] → t.inProgress = none ∧ t.outstanding = none)

/-- The final `ACC` of a run of commands is the byte of the last BITS2BYTE response, or the starting value if the run has
no BITS2BYTE; the starting value is 0 where the run began with a reset (70_reset_and_hazards.md section 5; the spec's
own inference). -/
def Obligations.FinalAccIsTheLastPackedByte : Prop :=
  ∀ (k : Block) (ws : List CmdWord),
    (runRequests Config.build k (ws.map .command)).1.acc =
      (match ws.reverse.find? (fun w => w.extractLsb' 64 3 == 2#3) with
        | some w => (respond Config.build w).data.extractLsb' 0 8
        | none => k.acc) ∧
    runRequests Config.build k (.reset :: ws.map .command) = runRequests Config.build { acc := 0 } (ws.map .command)

-- ## The invariant

/-- Every step keeps the response outstanding legal: an `OK` with kind 0 and at most `STR_MAX` characters, or an
`ERR_ILLEGAL` with no payload, and never an `ERR_INVALID_INPUT` in this hardware. -/
def Obligations.StepsKeepResponsesLegal : Prop :=
  ∀ s t : State, OutstandingLegal Config.build s → step s = .next t → OutstandingLegal Config.build t

/-- In the machine right after reset no response is outstanding, so none that is not legal. -/
def Obligations.ResetResponsesAreLegal : Prop := OutstandingLegal Config.build State.reset
end

