-- ==== Sys2Proof/Laws/Octet.lean ====
section
/-! SUPPORT. The lemmas of octets and of their bus layouts: one per operation, so that no proof unfolds a layout. -/

namespace Sys2Proof.Laws

open Sys2Proof

variable {α β : Type}

@[simp] theorem get_ofFn (f : Fin 8 → α) (i : Fin 8) : (Octet.ofFn f).get i = f i := by
  fin_cases i <;> rfl

@[simp] theorem get_map (f : α → β) (o : Octet α) (i : Fin 8) : (o.map f).get i = f (o.get i) := by
  simp [Octet.map]

/-- Two octets with the same elements are the same octet. -/
theorem octet_ext {a b : Octet α} (h : ∀ i, a.get i = b.get i) : a = b := by
  obtain ⟨a0, a1, a2, a3, a4, a5, a6, a7⟩ := a
  obtain ⟨b0, b1, b2, b3, b4, b5, b6, b7⟩ := b
  have := h 0; have := h 1; have := h 2; have := h 3
  have := h 4; have := h 5; have := h 6; have := h 7
  simp_all [Octet.get]

theorem forall_mem_toList (P : α → Prop) (o : Octet α) :
    (∀ x ∈ o.toList, P x) ↔ ∀ i, P (o.get i) := by
  constructor
  · intro h i
    fin_cases i <;> exact h _ (by simp [Octet.toList, Octet.get])
  · intro h x hx
    simp only [Octet.toList, List.mem_cons, List.not_mem_nil, or_false] at hx
    rcases hx with rfl | rfl | rfl | rfl | rfl | rfl | rfl | rfl
    exacts [h 0, h 1, h 2, h 3, h 4, h 5, h 6, h 7]

/-- A clean octet is one whose every element is at most 1. -/
theorem isClean_iff (e : Octet Byte) : isClean e = true ↔ ∀ i, (e.get i).toNat ≤ 1 := by
  rw [← forall_mem_toList (fun x : Byte => x.toNat ≤ 1)]
  simp [isClean]

@[simp] theorem intOctetOfBus_get (w : Bus) (i : Fin 8) :
    (intOctetOfBus w).get i = w.extractLsb' (56 - 8 * i.val) 8 := by
  simp [intOctetOfBus]

/-- Element `i` of an integer octet sits at bits `[63-8i : 56-8i]` of the bus (20_memory.md rule R42). -/
theorem intOctetToBus_lane (e : Octet Byte) (i : Fin 8) :
    (intOctetToBus e).extractLsb' (56 - 8 * i.val) 8 = e.get i := by
  obtain ⟨e0, e1, e2, e3, e4, e5, e6, e7⟩ := e
  apply BitVec.eq_of_getLsbD_eq
  intro j hj
  fin_cases i <;>
    simp only [intOctetToBus, Octet.get, BitVec.getLsbD_extractLsb', BitVec.getLsbD_append] <;>
    interval_cases j <;> simp

@[simp] theorem boolOctetOfBus_get (x : Byte) (i : Fin 8) :
    (boolOctetOfBus x).get i = x.getLsbD (7 - i.val) := by
  simp [boolOctetOfBus]

/-- Element `i` of a boolean octet sits at bit `7-i` of the bus (20_memory.md rule R43). -/
theorem boolOctetToBus_lane (o : Octet Bool) (i : Fin 8) :
    (boolOctetToBus o).getLsbD (7 - i.val) = o.get i := by
  obtain ⟨o0, o1, o2, o3, o4, o5, o6, o7⟩ := o
  fin_cases i <;> simp only [boolOctetToBus, Octet.get, BitVec.getLsbD_append] <;> simp

end Sys2Proof.Laws
end

