-- ==== Sys2Proof/Laws/Decode.lean ====
section
/-! SUPPORT. The fields of a command word put together from an opcode and an operand field. -/

namespace Sys2Proof.Laws

open Sys2Proof

@[simp] theorem opcodeOf_append (op : BitVec 3) (arg : Bus) : opcodeOf (op ++ arg : CmdWord) = op := by
  apply BitVec.eq_of_getLsbD_eq
  intro j hj
  simp only [opcodeOf, BitVec.getLsbD_extractLsb', BitVec.getLsbD_append]
  interval_cases j <;> simp

@[simp] theorem argOf_append (op : BitVec 3) (arg : Bus) : argOf (op ++ arg : CmdWord) = arg := by
  apply BitVec.eq_of_getLsbD_eq
  intro j hj
  simp only [argOf, BitVec.getLsbD_extractLsb', BitVec.getLsbD_append]
  simp [hj]

/-- A command word is its opcode over its operand field. -/
theorem opcodeOf_append_argOf (w : CmdWord) : (opcodeOf w ++ argOf w : CmdWord) = w := by
  apply BitVec.eq_of_getLsbD_eq
  intro j hj
  simp only [opcodeOf, argOf, BitVec.getLsbD_extractLsb', BitVec.getLsbD_append]
  by_cases h : j < 64
  · simp [h]
  · have : j - 64 < 3 := by omega
    simp [h, this, show 64 + (j - 64) = j by omega]

@[simp] theorem reservedAbove8_append (r : BitVec 56) (x : Byte) : reservedAbove8 (r ++ x : Bus) = r := by
  apply BitVec.eq_of_getLsbD_eq
  intro j hj
  simp only [reservedAbove8, BitVec.getLsbD_extractLsb', BitVec.getLsbD_append]
  simp [hj]

@[simp] theorem reservedAbove32_append (r : BitVec 32) (d : Decimal) : reservedAbove32 (r ++ d : Bus) = r := by
  apply BitVec.eq_of_getLsbD_eq
  intro j hj
  simp only [reservedAbove32, BitVec.getLsbD_extractLsb', BitVec.getLsbD_append]
  simp [hj]

end Sys2Proof.Laws
end

