-- ==== Sys2Proof/Laws/Formatter.lean ====
section
/-! SUPPORT. The small lemmas of the formatter's data path. -/

namespace Sys2Proof.Laws

open Sys2Proof Sys2Proof.Machine

@[simp] theorem digitsBelow_zero (d : Decimal) : digitsBelow d 0 = [] := rfl
@[simp] theorem digitsBelow_succ (d : Decimal) (j : Nat) :
    digitsBelow d (j + 1) = bitChar (d.getLsbD j) :: digitsBelow d j := rfl

@[simp] theorem digitsBelow_length (d : Decimal) (m : Nat) : (digitsBelow d m).length = m := by
  induction m with
  | zero => rfl
  | succ j ih => simp [ih]

theorem lengthBelow_le (d : Decimal) (m : Nat) : lengthBelow d m ≤ m := by
  induction m with
  | zero => simp [lengthBelow]
  | succ j ih => simp only [lengthBelow]; split <;> omega

/-- The bit under the length found is set. -/
theorem lengthBelow_bit {d : Decimal} {m j : Nat} (h : lengthBelow d m = j + 1) : d.getLsbD j = true := by
  induction m with
  | zero => simp [lengthBelow] at h
  | succ i ih =>
    simp only [lengthBelow] at h
    split at h
    · obtain rfl : i = j := by omega
      assumption
    · exact ih h

/-- No bit is set from the length found up to the bound. -/
theorem lengthBelow_above {d : Decimal} {m j : Nat} (hl : lengthBelow d m ≤ j) (hm : j < m) :
    d.getLsbD j = false := by
  induction m with
  | zero => omega
  | succ i ih =>
    simp only [lengthBelow] at hl
    split at hl
    · omega
    · rcases Nat.lt_succ_iff_lt_or_eq.mp hm with h | rfl
      · exact ih hl h
      · simpa using ‹¬d.getLsbD _ = true›

theorem fmt_padded {p : Build} (h : p.padPolicy = .padded) (d : Decimal) : fmt p d = group4 (pad d) := by
  simp [fmt, h]

theorem fmt_unpadded {p : Build} (h : p.padPolicy = .unpadded) (d : Decimal) : fmt p d = group4 (minbin d) := by
  simp [fmt, h]

@[simp] theorem group4_nil : group4 [] = [] := rfl
@[simp] theorem group4_cons (c : Byte) (t : Str) : group4 (c :: t) = c :: groupRest t := rfl
@[simp] theorem groupRest_nil : groupRest [] = [] := rfl

theorem groupRest_cons (c : Byte) (t : Str) :
    groupRest (c :: t) =
      if (t.length + 1) % 4 = 0 then Config.sep :: c :: groupRest t else c :: groupRest t := rfl

@[simp] theorem makeFormattedNumber_decimal (p : Build) (d : Decimal) :
    (makeFormattedNumber p d).decimal = d := rfl
@[simp] theorem makeFormattedNumber_binary (p : Build) (d : Decimal) :
    (makeFormattedNumber p d).binary = fmt p d := rfl

end Sys2Proof.Laws
end

