-- ==== Sys2Proof/Laws/PerInstr.lean ====
section
/-! SUPPORT. The per-instruction family TableRow: an operation's word selects its own row of the opcode table
(30_encoding.md rule R56). -/

namespace Sys2Proof.Laws.TableRow

open Sys2Proof

/-- The row of the operation's mnemonic is in the table, and the operation's word selects it. -/
def Statement (i : Instr) : Prop :=
  ∃ r ∈ opcodeTable, r.mnemonic = i.mnemonic ∧ r.selects (encode i) = true

theorem and_mask_of_bits {w m q : CmdWord} (h : ∀ j < 67, (w.getLsbD j && m.getLsbD j) = q.getLsbD j) :
    w &&& m = q :=
  BitVec.eq_of_getLsbD_eq fun j hj => by simpa using h j hj

theorem bools2bits (b : Octet Bool) : Statement (.bools2bits b) := by
  refine ⟨_, .head _, rfl, ?_⟩
  simp only [TableRow.selects, encode, beq_iff_eq]
  apply and_mask_of_bits
  intro j hj
  simp only [BitVec.getLsbD_append]
  interval_cases j <;> simp

theorem bits2bools (e : Octet Byte) : Statement (.bits2bools e) := by
  refine ⟨_, .tail _ (.head _), rfl, ?_⟩
  simp only [TableRow.selects, encode, beq_iff_eq]
  apply and_mask_of_bits
  intro j hj
  simp only [BitVec.getLsbD_append]
  interval_cases j <;> simp

theorem bits2byte (e : Octet Byte) : Statement (.bits2byte e) := by
  refine ⟨_, .tail _ (.tail _ (.head _)), rfl, ?_⟩
  simp only [TableRow.selects, encode, beq_iff_eq]
  apply and_mask_of_bits
  intro j hj
  simp only [BitVec.getLsbD_append]
  interval_cases j <;> simp

theorem byte2bits (n : Byte) : Statement (.byte2bits n) := by
  refine ⟨_, .tail _ (.tail _ (.tail _ (.head _))), rfl, ?_⟩
  simp only [TableRow.selects, encode, beq_iff_eq]
  apply and_mask_of_bits
  intro j hj
  simp only [BitVec.getLsbD_append]
  interval_cases j <;> simp

theorem fmtnum (d : Decimal) : Statement (.fmtnum d) := by
  refine ⟨_, .tail _ (.tail _ (.tail _ (.tail _ (.head _)))), rfl, ?_⟩
  simp only [TableRow.selects, encode, beq_iff_eq]
  apply and_mask_of_bits
  intro j hj
  simp only [BitVec.getLsbD_append]
  interval_cases j <;> simp

theorem display (d : Decimal) : Statement (.display d) := by
  refine ⟨_, .tail _ (.tail _ (.tail _ (.tail _ (.tail _ (.head _))))), rfl, ?_⟩
  simp only [TableRow.selects, encode, beq_iff_eq]
  apply and_mask_of_bits
  intro j hj
  simp only [BitVec.getLsbD_append]
  interval_cases j <;> simp

end Sys2Proof.Laws.TableRow
end

