-- ==== Sys2Proof/Laws/State.lean ====
section
/-! SUPPORT. One lemma per field per update of the state, and one per shared operation. -/

namespace Sys2Proof.Laws

open Sys2Proof Sys2Proof.Machine

@[simp] theorem deliver_block (x : Block × Response) (s : State) : (deliver x s).block = x.1 := rfl
@[simp] theorem deliver_inProgress (x : Block × Response) (s : State) :
    (deliver x s).inProgress = s.inProgress := rfl
@[simp] theorem deliver_outstanding (x : Block × Response) (s : State) :
    (deliver x s).outstanding = some x.2 := rfl

/-- Everything a reset leaves: the machine right after reset, whatever it was before. -/
@[simp] theorem performReset_eq (s : State) : performReset s = State.reset := rfl

@[simp] theorem answerIllegal_block (s : State) : (answerIllegal s).block = s.block := rfl
@[simp] theorem answerIllegal_inProgress (s : State) : (answerIllegal s).inProgress = s.inProgress := rfl
@[simp] theorem answerIllegal_outstanding (s : State) :
    (answerIllegal s).outstanding = some (errorResponse .illegal) := rfl

@[simp] theorem placeRequest_block (r : Request) (s : State) : (placeRequest r s).block = s.block := rfl
@[simp] theorem placeRequest_inProgress (r : Request) (s : State) :
    (placeRequest r s).inProgress = some r := rfl
@[simp] theorem placeRequest_outstanding (r : Request) (s : State) :
    (placeRequest r s).outstanding = s.outstanding := rfl

@[simp] theorem takeResponse_block (s : State) : (takeResponse s).block = s.block := rfl
@[simp] theorem takeResponse_inProgress (s : State) : (takeResponse s).inProgress = s.inProgress := rfl
@[simp] theorem takeResponse_outstanding (s : State) : (takeResponse s).outstanding = none := rfl

@[simp] theorem waitIdle_eq (s : State) : waitIdle s = s := rfl

@[simp] theorem respondOk_block (k : Block) (d : Bus) (u : Str) : (respondOk k d u).1 = k := rfl
@[simp] theorem respondOk_response (k : Block) (d : Bus) (u : Str) :
    (respondOk k d u).2 = ⟨.ok, .none, d, u⟩ := rfl

/-- An error leaves the block as it was (60_exceptions.md rule R143). -/
@[simp] theorem raiseError_block (err : Error) (k : Block) : (raiseError err k).1 = k := rfl
@[simp] theorem raiseError_response (err : Error) (k : Block) : (raiseError err k).2 = errorResponse err := rfl
@[simp] theorem errorResponse_data (err : Error) : (errorResponse err).data = 0 := by cases err <;> rfl
@[simp] theorem errorResponse_str (err : Error) : (errorResponse err).str = [] := by cases err <;> rfl

theorem strLen_eq (r : Response) : r.strLen = r.str.length := rfl

/-- A lane below `str_len` carries its character (30_encoding.md rule R61). -/
theorem lane_of_getElem? {r : Response} {j : Nat} {c : Byte} (h : r.str[j]? = some c) : r.lane j = c := by
  simp [Response.lane, List.getD, h]

theorem takeRequest_none {s : State} (h : s.inProgress = none) : takeRequest s = none := by
  simp [takeRequest, h]

theorem takeRequest_some {s : State} {r : Request} (h : s.inProgress = some r) :
    takeRequest s = some (r, { s with inProgress := none }) := by
  simp [takeRequest, h]

end Sys2Proof.Laws
end

