-- ==== Sys2Proof/Laws/Step.lean ====
section
/-! SUPPORT. What a step can do, said once: execution is the block's step in this hardware's build, and a step is one of
three cases, by the request the host has issued. -/

namespace Sys2Proof.Laws

open Sys2Proof Sys2Proof.Machine

/-- Execution delivers the block's own step of the operation. -/
theorem exec_eq_deliver (i : Instr) (s : State) :
    exec i s = .next (deliver (perform Config.build i s.block) s) := by
  cases i <;> rfl

theorem step_of_idle {s : State} (h : s.inProgress = none) : step s = .next s := by
  simp [step, takeRequest_none h]

theorem step_of_reset {s : State} (h : s.inProgress = some .reset) : step s = .next State.reset := by
  simp [step, takeRequest_some h]

theorem step_of_command {s : State} {w : CmdWord} (h : s.inProgress = some (.command w)) :
    step s = .next (deliver (commandStep Config.build s.block w) { s with inProgress := none }) := by
  simp only [step, takeRequest_some h, commandStep]
  cases decode w with
  | none => rfl
  | some i => exact exec_eq_deliver i _

/-- The three cases of a step that answers a next state. -/
theorem step_cases {s t : State} (h : step s = .next t) :
    (s.inProgress = none ∧ t = s) ∨
    (s.inProgress = some .reset ∧ t = State.reset) ∨
    (∃ w, s.inProgress = some (.command w) ∧
      t = deliver (commandStep Config.build s.block w) { s with inProgress := none }) := by
  rcases hp : s.inProgress with _ | ⟨_ | w⟩
  · rw [step_of_idle hp] at h
    exact .inl ⟨rfl, by cases h; rfl⟩
  · rw [step_of_reset hp] at h
    exact .inr (.inl ⟨rfl, by cases h; rfl⟩)
  · rw [step_of_command hp] at h
    exact .inr (.inr ⟨w, rfl, by cases h; rfl⟩)

/-- BITS2BOOLS ends `OK` unless a strict build is given a dirty octet. -/
theorem blockBits2bools_ok {p : Build} {e : Octet Byte} (k : Block) (h : (p.strict && !isClean e) = false) :
    blockBits2bools p e k = respondOk k (0#56 ++ boolOctetToBus (e.map fun x => x == 0x01#8)) [] := by
  simp [blockBits2bools, h]

/-- BITS2BYTE ends `OK` unless a strict build is given a dirty octet. -/
theorem blockBits2byte_ok {p : Build} {e : Octet Byte} (k : Block) (h : (p.strict && !isClean e) = false) :
    blockBits2byte p e k = respondOk { k with acc := accAfter e 8 } (0#56 ++ accAfter e 8) [] := by
  simp [blockBits2byte, h]

/-- Only BITS2BYTE leaves the block other than it was. -/
theorem perform_block {p : Build} {i : Instr} (k : Block) (h : ∀ e, i ≠ .bits2byte e) :
    (perform p i k).1 = k := by
  cases i with
  | bits2byte e => exact absurd rfl (h e)
  | bits2bools e => simp only [perform, blockBits2bools]; split <;> rfl
  | bools2bits | byte2bits | fmtnum | display => rfl

end Sys2Proof.Laws
end

