-- ==== Sys2Proof/Laws/Run.lean ====
section
/-! SUPPORT. A run of the machine, one request at a time. -/

namespace Sys2Proof.Laws

open Sys2Proof Sys2Proof.Machine

@[simp] theorem runProgram_nil (s : State) : runProgram [] s = .next (s, []) := rfl

/-- A run whose first step and whose rest answer next states answers one. -/
theorem runProgram_cons {r : Request} {rest : List Request} {s t u : State} {out : List Response}
    (ht : step (placeRequest r s) = .next t) (hu : runProgram rest (takeResponse t) = .next (u, out)) :
    runProgram (r :: rest) s = .next (u, t.outstanding.toList ++ out) := by
  simp [runProgram, ht, hu]

end Sys2Proof.Laws
end

