-- ==== Sys2Proof/Machine/Assembler.lean ====
section
/-! DEFINITION. The assembler's text form, 30_encoding.md rules R66 and R67: from the characters of one line to a parsed
line (`Asm`) and to its command word. It stands outside the block, on the host's side. Spaces between tokens carry no
meaning, and letters of hexadecimal digits may be capital or small (log entry 8). -/

namespace Sys2Proof.Machine

/-- A token of a line. -/
inductive Token where
  | word (cs : List Char)
  | openBracket
  | closeBracket
  | openParen
  | closeParen
  | comma
deriving DecidableEq, Repr

/-- A character of a mnemonic, a function name or a number. -/
def isWordChar (c : Char) : Bool := c.isAlphanum || c == '.'

/-- The tokens of a line; `cur` holds the word being read, last character first. A character outside the forms of
30_encoding.md rule R66 rejects the line. -/
def lexLine (cs : List Char) (cur : List Char) : Option (List Token) :=
  let closed (ts : List Token) : List Token := if cur = [] then ts else .word cur.reverse :: ts
  match cs with
  | [] => some (closed [])
  | c :: rest =>
    if isWordChar c then lexLine rest (c :: cur)
    else if c = ' ' then (lexLine rest []).map closed
    else if c = '[' then (lexLine rest []).map fun ts => closed (.openBracket :: ts)
    else if c = ']' then (lexLine rest []).map fun ts => closed (.closeBracket :: ts)
    else if c = '(' then (lexLine rest []).map fun ts => closed (.openParen :: ts)
    else if c = ')' then (lexLine rest []).map fun ts => closed (.closeParen :: ts)
    else if c = ',' then (lexLine rest []).map fun ts => closed (.comma :: ts)
    else none

/-- The value of a decimal digit. -/
def decDigitOf (c : Char) : Option Nat :=
  if '0' ≤ c ∧ c ≤ '9' then some (c.toNat - '0'.toNat) else none

/-- The value of a hexadecimal digit. -/
def hexDigitOf (c : Char) : Option Nat :=
  if 'A' ≤ c ∧ c ≤ 'F' then some (c.toNat - 'A'.toNat + 10)
  else if 'a' ≤ c ∧ c ≤ 'f' then some (c.toNat - 'a'.toNat + 10)
  else decDigitOf c

/-- The number written by digits of a base, continuing from `v`. -/
def readDigits (base : Nat) (digit : Char → Option Nat) (v : Nat) (cs : List Char) : Option Nat :=
  match cs with
  | [] => some v
  | c :: rest => (digit c).bind fun x => readDigits base digit (v * base + x) rest

/-- A hexadecimal number without a prefix. -/
def readHex (cs : List Char) : Option Nat := if cs = [] then none else readDigits 16 hexDigitOf 0 cs

/-- A number: decimal, or hexadecimal with the prefix `0x` (30_encoding.md rule R66). -/
def readNumber (cs : List Char) : Option Nat :=
  match cs with
  | '0' :: 'x' :: rest => readHex rest
  | [] => none
  | c :: rest => readDigits 10 decDigitOf 0 (c :: rest)

/-- The raw word of `.cmd`: hexadecimal (30_encoding.md rule R66). With or without the prefix `0x`, and with any number of
digits: a word of fewer than 17 digits is read as its value, and leading zeros may make it longer (DESIGN CHOICE, log
entry 8); the range check of `Asm.wellFormed` then rejects a value of 2^67 or more. -/
def readRaw (cs : List Char) : Option Nat :=
  match cs with
  | '0' :: 'x' :: rest => readHex rest
  | _ => readHex cs

/-- A boolean literal (30_encoding.md rule R66). -/
def readBool (cs : List Char) : Option Bool :=
  if cs = "true".toList then some true else if cs = "false".toList then some false else none

/-- The elements of an octet literal after its first bracket, and what follows the last bracket. -/
def readElements (ts : List Token) : Option (List (List Char) × List Token) :=
  match ts with
  | .word x :: .closeBracket :: rest => some ([x], rest)
  | .word x :: .comma :: rest => (readElements rest).map fun r => (x :: r.1, r.2)
  | _ => none

/-- One operand literal, as the words it holds and whether it is an octet literal, and what follows it. -/
def readLiteral (ts : List Token) : Option ((Bool × List (List Char)) × List Token) :=
  match ts with
  | .openBracket :: rest => (readElements rest).map fun r => ((true, r.1), r.2)
  | .word x :: rest => some ((false, [x]), rest)
  | _ => none

/-- All elements of a list read by `f`, or none if one cannot be read. -/
def readAll {α : Type} (f : List Char → Option α) (ws : List (List Char)) : Option (List α) :=
  match ws with
  | [] => some []
  | w :: rest => (f w).bind fun x => (readAll f rest).map fun xs => x :: xs

/-- A line of the operation with table mnemonic `mn` on a literal (30_encoding.md rule R66). -/
def lineOf (mn : String) (lit : Bool × List (List Char)) : Option Asm :=
  match lit with
  | (true, ws) =>
    if mn = "BOOLS2BITS" then (readAll readBool ws).map .bools2bits
    else if mn = "BITS2BOOLS" then (readAll readNumber ws).map .bits2bools
    else if mn = "BITS2BYTE" then (readAll readNumber ws).map .bits2byte
    else none
  | (false, [w]) =>
    if mn = "BYTE2BITS" then (readNumber w).map .byte2bits
    else if mn = "FMTNUM" then (readNumber w).map .fmtnum
    else if mn = "DISPLAY" then (readNumber w).map .display
    else if mn = ".cmd" then (readRaw w).map .raw
    else none
  | (false, _) => none

/-- The mnemonic that a source function name is another name of, in call form (30_encoding.md rule R67). The display
accessor has no source name. -/
def functionMnemonic (name : List Char) : Option String :=
  if name = "booleansToBits".toList then some "BOOLS2BITS"
  else if name = "bitsToBooleans".toList then some "BITS2BOOLS"
  else if name = "bitsToByte".toList then some "BITS2BYTE"
  else if name = "byteToBits".toList then some "BYTE2BITS"
  else if name = "FormattedNumber".toList then some "FMTNUM"
  else none

/-- A parsed line: a mnemonic and a literal, or a source function name and a literal in parentheses (30_encoding.md
rules R66, R67). No line is more than one command. -/
def parseTokens (ts : List Token) : Option Asm :=
  match ts with
  | .word f :: .openParen :: rest =>
    match functionMnemonic f, readLiteral rest with
    | some mn, some (lit, [.closeParen]) => lineOf mn lit
    | _, _ => none
  | .word mn :: rest =>
    match readLiteral rest with
    | some (lit, []) => lineOf (String.ofList mn) lit
    | _ => none
  | _ => none

/-- The command word of a line of text (30_encoding.md rules R66, R67). -/
def assembleText (cs : List Char) : Option CmdWord :=
  ((lexLine cs []).bind parseTokens).bind Asm.assemble

end Sys2Proof.Machine
end

