-- ==== Sys2Proof/Tests/Slice0.lean ====
section
/-! SUPPORT. The model's own tests. Expected values are the spec's: 95_test_vectors.md (rows named in the comments),
30_encoding.md and 60_exceptions.md. Then a witness for the hypotheses of each statement that has some. -/

namespace Sys2Proof.Tests

open Sys2Proof Sys2Proof.Machine

/-- Text as character codes. -/
def chars (u : String) : Str := u.toList.map fun c => BitVec.ofNat 8 c.toNat

/-- A state with `ACC = 0x5A`, the start of the rows of 95_test_vectors.md sections 3 and 5, and one request. -/
def before (r : Request) : State := ⟨⟨0x5A⟩, some r, none⟩

/-- Builds for the rows that name another parameter value, with empty labels. -/
def strictBuild : Build := ⟨.padded, true, [], []⟩
def unpaddedBuild : Build := ⟨.unpadded, false, [], []⟩
def emptyLabels : Build := ⟨.padded, false, [], []⟩

-- Well-formedness: one ill-formed literal for each check (30_encoding.md rule R66).
theorem test_wf_bools_seven : (Asm.bools2bits [true, true, true, true, true, true, true]).wellFormed = false := by decide
theorem test_wf_octet_nine : (Asm.bits2bools [0, 0, 0, 0, 0, 0, 0, 0, 0]).wellFormed = false := by decide
theorem test_wf_octet_256 : (Asm.bits2bools [0, 0, 256, 0, 0, 0, 0, 0]).wellFormed = false := by decide
theorem test_wf_pack_seven : (Asm.bits2byte [0, 0, 0, 0, 0, 0, 0]).wellFormed = false := by decide
theorem test_wf_pack_256 : (Asm.bits2byte [0, 0, 0, 0, 0, 0, 0, 256]).wellFormed = false := by decide
theorem test_wf_byte_256 : (Asm.byte2bits 256).wellFormed = false := by decide
theorem test_wf_fmtnum_2_32 : (Asm.fmtnum 4294967296).wellFormed = false := by decide
theorem test_wf_display_2_32 : (Asm.display 4294967296).wellFormed = false := by decide
theorem test_wf_raw_2_67 : (Asm.raw (2 ^ 67)).wellFormed = false := by decide
theorem test_wf_octet_255 : (Asm.bits2byte [255, 0, 1, 2, 3, 4, 5, 6]).wellFormed = true := by decide

-- Decoding: words written from 30_encoding.md rule R56 (examples of rule R66 and 95_test_vectors.md section 1).
theorem test_decode_bools2bits : decode 0x00000000000000069#67 =
    some (.bools2bits ⟨false, true, true, false, true, false, false, true⟩) := by decide
theorem test_decode_bits2bools : decode 0x100010203FF010001#67 =
    some (.bits2bools ⟨0, 1, 2, 3, 255, 1, 0, 1⟩) := by decide
theorem test_decode_bits2byte : decode 0x20001010001000001#67 =
    some (.bits2byte ⟨0, 1, 1, 0, 1, 0, 0, 1⟩) := by decide
theorem test_decode_byte2bits : decode 0x3000000000000004F#67 = some (.byte2bits 79) := by decide
theorem test_decode_fmtnum : decode 0x4000000000000BEEF#67 = some (.fmtnum 48879) := by decide
theorem test_decode_display : decode 0x50000000000000069#67 = some (.display 105) := by decide
theorem test_decode_display_max : decode 0x500000000FFFFFFFF#67 = some (.display 4294967295) := by decide
-- 95_test_vectors.md section 5.1.
theorem test_decode_reserved_bit_8 : decode 0x00000000000000100#67 = none := by decide
theorem test_decode_reserved_bit_63 : decode 0x58000000000000000#67 = none := by decide
theorem test_decode_byte_1FF : decode 0x300000000000001FF#67 = none := by decide
theorem test_decode_fmtnum_bit_32 : decode 0x40000000100000000#67 = none := by decide
theorem test_decode_opcode_6 : decode 0x6FFFFFFFFFFFFFFFF#67 = none := by decide
theorem test_decode_opcode_7 : decode 0x70000000000000069#67 = none := by decide
theorem test_encode_words :
    encode (.bools2bits ⟨false, true, true, false, true, false, false, true⟩) = 0x00000000000000069#67 ∧
    encode (.bits2byte ⟨0, 1, 1, 0, 1, 0, 0, 1⟩) = 0x20001010001000001#67 ∧
    encode (.display 105) = 0x50000000000000069#67 := by decide
theorem test_table_word_in_72_bits : decodeTableWord 72 0x3000000000000004F = some (.byte2bits 79) := by decide
theorem test_table_word_too_wide : decodeTableWord 72 (2 ^ 67) = none := by decide

-- BOOLS2BITS, 95_test_vectors.md section 2.1.
theorem test_bools2bits_s4 :
    (respond Config.build 0x00000000000000069#67) = ⟨.ok, .none, 0x0001010001000001#64, []⟩ := by decide
theorem test_bools2bits_first_lane :
    (respond Config.build 0x00000000000000080#67).data = 0x0100000000000000#64 := by decide
-- BITS2BOOLS, section 2.2: 3 and 255 are not 1; 129 is not 1.
theorem test_bits2bools_dirty :
    (respond Config.build 0x100010203FF010001#67) = ⟨.ok, .none, 0x45#64, []⟩ := by decide
theorem test_bits2bools_129 : (respond Config.build 0x10101010101010181#67).data = 0xFE#64 := by decide
-- BITS2BYTE, section 3.1, from ACC = 0x5A.
theorem test_bits2byte_dirty :
    commandStep Config.build ⟨0x5A⟩ 0x200010203FF010001#67 = (⟨0x5D⟩, ⟨.ok, .none, 0x5D#64, []⟩) := by decide
theorem test_bits2byte_trace :
    (List.range 9).map (accAfter ⟨0, 1, 1, 0, 1, 0, 0, 1⟩) = [0, 0, 1, 3, 6, 13, 26, 52, 105] := by decide
-- BYTE2BITS, section 3.2.
theorem test_byte2bits_79 :
    commandStep Config.build ⟨0x5A⟩ 0x3000000000000004F#67 = (⟨0x5A⟩, ⟨.ok, .none, 0x0001000001010101#64, []⟩) := by decide
theorem test_byte2bits_128 : (respond Config.build 0x30000000000000080#67).data = 0x0100000000000000#64 := by decide
-- FMTNUM, section 4.1.
theorem test_fmtnum_48879 : respond Config.build 0x4000000000000BEEF#67 =
    ⟨.ok, .none, 0xBEEF#64, chars "1011_1110_1110_1111"⟩ := by decide +kernel
theorem test_fmtnum_65536 : (respond Config.build 0x40000000000010000#67).str =
    chars "0000_0001_0000_0000_0000_0000" := by decide +kernel
-- FMTNUM as bus values, section 4.2.
theorem test_fmtnum_10_codes :
    (respond emptyLabels 0x4000000000000000A#67).str = [0x30, 0x30, 0x30, 0x30, 0x5F, 0x31, 0x30, 0x31, 0x30] := by
  decide
-- The unpadded policy, S13 and S14.
theorem test_unpadded_42 : (respond unpaddedBuild 0x4000000000000002A#67).str = chars "10_1010" := by decide +kernel
theorem test_unpadded_0 : (respond unpaddedBuild 0x40000000000000000#67).str = chars "0" := by decide +kernel
-- DISPLAY, section 4.3: with empty labels, and with the open labels (S11).
theorem test_display_empty_labels : respond emptyLabels 0x50000000000000069#67 =
    ⟨.ok, .none, 0, chars "1050110_1001"⟩ := by decide +kernel
theorem test_display_open_labels : exec (.display 105) State.reset = .next ⟨⟨0⟩, none,
    some ⟨.ok, .none, 0, Config.labelDec ++ [0x31, 0x30, 0x35] ++ Config.labelBin ++
      [0x30, 0x31, 0x31, 0x30, 0x5F, 0x31, 0x30, 0x30, 0x31]⟩⟩ := by rfl
-- String lanes at and above str_len, section 4.2.
theorem test_lane_above_length :
    (respond emptyLabels 0x4000000000000000A#67).lanes emptyLabels =
      [0x30, 0x30, 0x30, 0x30, 0x5F, 0x31, 0x30, 0x31, 0x30] ++ List.replicate 40 0x00 := by decide +kernel

-- Errors, section 5.1: the block keeps 0x5A.
theorem test_illegal_opcode : step (before (.command 0x60000000000000000#67)) =
    .next ⟨⟨0x5A⟩, none, some ⟨.errIllegal, .none, 0, []⟩⟩ := by rfl
theorem test_illegal_reserved_bit : step (before (.command 0x40000000100000000#67)) =
    .next ⟨⟨0x5A⟩, none, some ⟨.errIllegal, .none, 0, []⟩⟩ := by rfl
-- STRICT = 1, section 5.2.
theorem test_strict_bits2byte_dirty : commandStep strictBuild ⟨0x5A⟩ 0x20001020000000000#67 =
    (⟨0x5A⟩, ⟨.errInvalidInput, .elementDomain, 0, []⟩) := by decide
theorem test_strict_bits2bools_255 : commandStep strictBuild ⟨0x5A⟩ 0x101010101010101FF#67 =
    (⟨0x5A⟩, ⟨.errInvalidInput, .elementDomain, 0, []⟩) := by decide
theorem test_strict_bits2byte_clean : commandStep strictBuild ⟨0x5A⟩ 0x20001010001000001#67 =
    (⟨0x69⟩, ⟨.ok, .none, 0x69#64, []⟩) := by decide

-- Reset, program P6 step 2; idle; the host's placing of a word.
theorem test_reset_clears_acc : step ⟨⟨0xFF⟩, some .reset, none⟩ = .next ⟨⟨0x00⟩, none, none⟩ := by rfl
theorem test_idle : step State.reset = .next State.reset := by rfl
theorem test_placed_word : step (State.reset.withFetchWord 72 0x20001010001000001) =
    .next ⟨⟨0x69⟩, none, some ⟨.ok, .none, 0x69#64, []⟩⟩ := by rfl

-- A run: program P6 of section 6, steps 1 to 3; the program is the run's argument and the responses its output.
theorem test_run_p6 :
    runProgram [.command 0x20101010101010101#67, .reset, .command 0x300000000000000FF#67] State.reset =
      .next (State.reset, [⟨.ok, .none, 0xFF#64, []⟩, ⟨.ok, .none, 0x0101010101010101#64, []⟩]) := by rfl

-- Assembler text, 30_encoding.md rules R66 and R67.
theorem test_text_pack : assembleText "BITS2BYTE [0,1,1,0,1,0,0,1]".toList = some 0x20001010001000001#67 := by
  decide +kernel
theorem test_text_bools :
    assembleText "BOOLS2BITS [false,true,true,false,true,false,false,true]".toList = some 0x00000000000000069#67 := by
  decide +kernel
theorem test_text_call : assembleText "FormattedNumber(48879)".toList = some 0x4000000000000BEEF#67 := by
  decide +kernel
theorem test_text_raw : assembleText ".cmd 60000000000000000".toList = some 0x60000000000000000#67 := by
  decide +kernel
theorem test_text_out_of_range : assembleText "BYTE2BITS 256".toList = none := by decide +kernel

-- Witnesses: states and operands that meet the hypotheses of the statements, at the boundaries of their ranges.
theorem wit_operands_8 : (0xFF#64).extractLsb' 8 56 = 0 := by decide
theorem wit_operands_32 : (0xFFFFFFFF#64).extractLsb' 32 32 = 0 := by decide
theorem wit_reserved_opcode_6 : 6 ≤ (6#3).toNat ∧
    (before (.command (6#3 ++ (0xFFFFFFFFFFFFFFFF#64 : Bus)))).inProgress = some (.command (6#3 ++ (0xFFFFFFFFFFFFFFFF#64 : Bus))) := by
  decide
theorem wit_reserved_opcode_7 : 6 ≤ (7#3).toNat ∧
    (before (.command (7#3 ++ (0#64 : Bus)))).inProgress = some (.command (7#3 ++ (0#64 : Bus))) := by decide
theorem wit_reserved_bits_8 : ((3#3 = 0#3 ∨ 3#3 = 3#3) ∧ (0x100#64 : Bus).extractLsb' 8 56 ≠ 0) ∧
    (before (.command (3#3 ++ (0x100#64 : Bus)))).inProgress = some (.command (3#3 ++ (0x100#64 : Bus))) := by decide
theorem wit_reserved_bits_32 : ((4#3 = 4#3 ∨ 4#3 = 5#3) ∧ (0x100000000#64 : Bus).extractLsb' 32 32 ≠ 0) ∧
    (before (.command (4#3 ++ (0x100000000#64 : Bus)))).inProgress = some (.command (4#3 ++ (0x100000000#64 : Bus))) := by
  decide
theorem wit_encode_of_decode : decode 0x300000000000000FF#67 = some (.byte2bits 255) := by decide
theorem wit_assembled_raw : (Asm.raw 0x7FFFFFFFFFFFFFFFF).assemble = some 0x7FFFFFFFFFFFFFFFF#67 := by decide
theorem wit_assembled_number : (Asm.byte2bits 255).assemble = some 0x300000000000000FF#67 := by decide
theorem wit_frame : (∃ t, exec (.byte2bits 255) (before .reset) = .next t) ∧ ∀ e, Instr.byte2bits 255 ≠ .bits2byte e :=
  ⟨⟨_, rfl⟩, by simp⟩
theorem wit_clean_octet : ∀ i, ((⟨0, 1, 1, 0, 1, 0, 0, 1⟩ : Octet Byte).get i).toNat ≤ 1 := by decide
theorem wit_minbin_top : (0x80000000#32 : Decimal) ≠ 0 ∧ 2 ^ 31 ≤ (0x80000000#32).toNat ∧
    (minbin 0x80000000#32).length = 32 := by decide +kernel
theorem wit_minbin_one : (1#32 : Decimal) ≠ 0 ∧ 2 ^ 0 ≤ (1#32).toNat ∧ (minbin 1#32).length = 1 := by decide +kernel
theorem wit_padded_position : 0 < 8 ∧ (pad 255#32)[0]? = some (digitChar 1) := by decide +kernel
theorem wit_closed_form_separator : 4 < 9 ∧ (fmt Config.build 255#32)[4]? = some Config.sep := by decide +kernel
theorem wit_grouped_string : (chars "10000") ≠ [] ∧ Config.sep ∉ chars "10000" := by decide +kernel
theorem wit_unpadded : unpaddedBuild.padPolicy = .unpadded := rfl
theorem wit_decimal : (10#32 : Decimal) ≠ 0 ∧ (dec 10#32).head? = some (digitChar 1) := by decide +kernel
theorem wit_same_string : fmt unpaddedBuild 5#32 = fmt unpaddedBuild 5#32 := rfl
theorem wit_error_illegal : (commandStep Config.build ⟨0x5A⟩ 0x60000000000000000#67).2.status = .errIllegal ∧
    (commandStep Config.build ⟨0x5A⟩ 0x60000000000000000#67).2.status ≠ .ok := by decide
theorem wit_error_invalid :
    (commandStep strictBuild ⟨0x5A⟩ 0x20001020000000000#67).2.status = .errInvalidInput ∧
    (commandStep strictBuild ⟨0x5A⟩ 0x20001020000000000#67).2.status ≠ .ok := by decide
theorem wit_strict_ok : (commandStep strictBuild ⟨0x5A⟩ 0x20101010101010101#67).2.status ≠ .errInvalidInput := by decide
theorem wit_lanes : (⟨.ok, .none, 0, [0x31]⟩ : Response).str[0]? = some 0x31#8 ∧
    (⟨.ok, .none, 0, [0x31]⟩ : Response).strLen ≤ 1 := by decide
theorem wit_port_lanes : 48 < strMax emptyLabels ∧ ¬ 49 < strMax emptyLabels := by decide
theorem wit_raw_range : 2 ^ 67 - 1 < 2 ^ 67 ∧ (Asm.raw (2 ^ 67)).assemble = none := by decide
theorem wit_zero_code : 0x00#8 ∈ (respond ⟨.padded, false, [0x00], []⟩ 0x50000000000000007#67).str := by decide
theorem wit_step_runs : (before (.command 0x50000000000000007#67)).inProgress = some (.command 0x50000000000000007#67) ∧
    decode 0x50000000000000007#67 = some (.display 7) := by decide
theorem wit_one_step : (before (.command 0x70000000000000000#67)).inProgress = some (.command 0x70000000000000000#67) := rfl
theorem wit_idle : State.reset.inProgress = none := rfl
theorem wit_reset : (before .reset).inProgress = some .reset := rfl
theorem wit_request_issued : (before (.command 0x20101010101010101#67)).inProgress ≠ none := by decide
theorem wit_nonempty_run : ([.reset] : List Request) ≠ [] := by decide
theorem wit_acc_written : (∃ t, step (before (.command 0x20101010101010101#67)) = .next t ∧ t.block.acc = 0xFF#8) ∧
    decode 0x20101010101010101#67 = some (.bits2byte ⟨1, 1, 1, 1, 1, 1, 1, 1⟩) := ⟨⟨_, rfl, by decide⟩, by decide⟩
theorem wit_acc_kept : (∃ t, step (before (.command 0x300000000000000FF#67)) = .next t) ∧
    ∀ e, decode 0x300000000000000FF#67 ≠ some (.bits2byte e) :=
  ⟨⟨_, rfl⟩, by rw [wit_encode_of_decode]; simp⟩
theorem wit_responses_legal :
    OutstandingLegal Config.build ⟨⟨0⟩, some (.command 0x300000000000000FF#67), some ⟨.errIllegal, .none, 0, []⟩⟩ ∧
    ∃ t, step ⟨⟨0⟩, some (.command 0x300000000000000FF#67), some ⟨.errIllegal, .none, 0, []⟩⟩ = .next t :=
  ⟨by simp [OutstandingLegal, Response.legal], ⟨_, rfl⟩⟩

end Sys2Proof.Tests
end

section
/-! PROOFS. What the state holds and who sees it (10_state.md rules R26 and R28): the response to a command is a function
of its word and of the build, and `ACC` is written by BITS2BYTE alone. -/

namespace Sys2Proof.Proofs

open Sys2Proof Sys2Proof.Machine Sys2Proof.Laws

-- ## The block's step on one word

theorem commandStep_of_legal {p : Build} {w : CmdWord} {i : Instr} (k : Block) (h : decode w = some i) :
    commandStep p k w = perform p i k := by
  simp [commandStep, h]

theorem commandStep_of_illegal {p : Build} {w : CmdWord} (k : Block) (h : decode w = none) :
    commandStep p k w = raiseError .illegal k := by
  simp [commandStep, h]

/-- No operation's response reads the block. The two octet operations choose between an answer and an error, and the
choice reads the build and the octet only (rules R83 and R92). -/
theorem perform_response_eq (p : Build) (i : Instr) (k k' : Block) :
    (perform p i k).2 = (perform p i k').2 := by
  cases i with
  | bits2bools e => simp only [perform, blockBits2bools]; split <;> rfl
  | bits2byte e => simp only [perform, blockBits2byte]; split <;> rfl
  | bools2bits | byte2bits | fmtnum | display => rfl

theorem commandStep_response_eq (p : Build) (k k' : Block) (w : CmdWord) :
    (commandStep p k w).2 = (commandStep p k' w).2 := by
  cases h : decode w with
  | none => simp [commandStep_of_illegal _ h]
  | some i => simpa [commandStep_of_legal _ h] using perform_response_eq p i k k'

/-- The response of a step is the response to its word, whatever the block holds. -/
@[simp] theorem commandStep_response (p : Build) (k : Block) (w : CmdWord) :
    (commandStep p k w).2 = respond p w :=
  commandStep_response_eq p k Block.reset w

/-- A word that is no BITS2BYTE, illegal words among them, leaves the block as it was. -/
theorem commandStep_block_of_not_bits2byte {p : Build} {w : CmdWord} (k : Block)
    (h : ∀ e, decode w ≠ some (.bits2byte e)) : (commandStep p k w).1 = k := by
  cases hw : decode w with
  | none => simp [commandStep_of_illegal k hw]
  | some i =>
    rw [commandStep_of_legal k hw]
    exact perform_block k fun e hi => h e (by rw [hw, hi])

/-- In a lenient build BITS2BYTE leaves the same byte in `ACC` and on the response port (rule R90). -/
theorem commandStep_of_bits2byte {p : Build} {w : CmdWord} {e : Octet Byte} (k : Block)
    (hp : p.strict = false) (h : decode w = some (.bits2byte e)) :
    commandStep p k w = (⟨accAfter e 8⟩, ⟨.ok, .none, 0#56 ++ accAfter e 8, []⟩) := by
  rw [commandStep_of_legal k h]
  exact blockBits2byte_ok k (by simp [hp])

-- ## The responses of a run

/-- The response a request gets in build `p`: none for a reset (60_exceptions.md rule R152). -/
def responseTo (p : Build) : Request → Option Response
  | .reset => none
  | .command w => some (respond p w)

@[simp] theorem responseTo_reset (p : Build) : responseTo p .reset = none := rfl
@[simp] theorem responseTo_command (p : Build) (w : CmdWord) :
    responseTo p (.command w) = some (respond p w) := rfl

@[simp] theorem serve_responses (p : Build) (k : Block) (r : Request) :
    (serve p k r).2 = (responseTo p r).toList := by
  cases r with
  | reset => rfl
  | command w => simp [serve]

@[simp] theorem runRequests_nil (p : Build) (k : Block) : runRequests p k [] = (k, []) := rfl

theorem runRequests_cons (p : Build) (k : Block) (r : Request) (rs : List Request) :
    runRequests p k (r :: rs) =
      ((runRequests p (serve p k r).1 rs).1, (serve p k r).2 ++ (runRequests p (serve p k r).1 rs).2) := rfl

/-- A run answers each command by its word: the responses are read off the requests, and the block is not asked. -/
theorem runRequests_responses (p : Build) (k : Block) (rs : List Request) :
    (runRequests p k rs).2 = rs.filterMap (responseTo p) := by
  induction rs generalizing k with
  | nil => rfl
  | cons r rs ih =>
    simp only [runRequests_cons, serve_responses, ih]
    cases r <;> simp [List.filterMap_cons]

-- ## The obligations

/-- Settles O44: what the step delivers is the block's step on the word, which writes `ACC` for BITS2BYTE only and
whose response does not read the block. -/
theorem onlyBits2byteWritesAcc : Obligations.OnlyBits2byteWritesAcc := by
  intro s t w hs ht
  rw [step_of_command hs] at ht
  cases ht
  refine ⟨fun hw => ?_, fun e hw => ?_, fun k => commandStep_response_eq _ k s.block w⟩
  · rw [deliver_block, commandStep_block_of_not_bits2byte s.block hw]
  · rw [commandStep_of_bits2byte s.block rfl hw]
    rfl

/-- Settles O45: one word by `commandStep_response`, and a run because its responses are read off its requests. -/
theorem responsesDependOnTheWordAlone : Obligations.ResponsesDependOnTheWordAlone :=
  fun p => ⟨commandStep_response p, fun k k' rs => by rw [runRequests_responses, runRequests_responses]⟩

end Sys2Proof.Proofs
end

section
/-! PROOFS. Command words and their answers (30_encoding.md rules R57, R61 to R63): what each opcode decodes to, which
words are illegal and how they are answered, and which characters a response's string can hold. -/

namespace Sys2Proof.Proofs

open Sys2Proof Sys2Proof.Machine Sys2Proof.Laws

-- ## The decoder, one equation per opcode (rule R65)

theorem decode_opcode_zero (arg : Bus) :
    decode (0#3 ++ arg) =
      if reservedAbove8 arg ≠ 0 then none else some (.bools2bits (boolOctetOfBus (arg.extractLsb' 0 8))) := by
  simp [decode]

theorem decode_opcode_one (arg : Bus) : decode (1#3 ++ arg) = some (.bits2bools (intOctetOfBus arg)) := by
  simp [decode]

theorem decode_opcode_two (arg : Bus) : decode (2#3 ++ arg) = some (.bits2byte (intOctetOfBus arg)) := by
  simp [decode]

theorem decode_opcode_three (arg : Bus) :
    decode (3#3 ++ arg) =
      if reservedAbove8 arg ≠ 0 then none else some (.byte2bits (arg.extractLsb' 0 8)) := by
  simp [decode]

theorem decode_opcode_four (arg : Bus) :
    decode (4#3 ++ arg) =
      if reservedAbove32 arg ≠ 0 then none else some (.fmtnum (arg.extractLsb' 0 32)) := by
  simp [decode]

theorem decode_opcode_five (arg : Bus) :
    decode (5#3 ++ arg) =
      if reservedAbove32 arg ≠ 0 then none else some (.display (arg.extractLsb' 0 32)) := by
  simp [decode]

/-- The opcodes 6 and 7 name no operation (rule R62). -/
theorem decode_reserved_opcode {op : BitVec 3} (arg : Bus) (h : 6 ≤ op.toNat) : decode (op ++ arg) = none := by
  obtain rfl | rfl : op = 6#3 ∨ op = 7#3 := by revert op; decide
  all_goals simp [decode]

/-- A set bit in `arg[63:8]` makes BOOLS2BITS and BYTE2BITS illegal (rule R63). -/
theorem decode_reserved_bit_above8 {op : BitVec 3} {arg : Bus} (hop : op = 0 ∨ op = 3)
    (h : reservedAbove8 arg ≠ 0) : decode (op ++ arg) = none := by
  obtain rfl | rfl := hop
  · exact (decode_opcode_zero arg).trans (if_pos h)
  · exact (decode_opcode_three arg).trans (if_pos h)

/-- A set bit in `arg[63:32]` makes FMTNUM and DISPLAY illegal (rule R63). -/
theorem decode_reserved_bit_above32 {op : BitVec 3} {arg : Bus} (hop : op = 4 ∨ op = 5)
    (h : reservedAbove32 arg ≠ 0) : decode (op ++ arg) = none := by
  obtain rfl | rfl := hop
  · exact (decode_opcode_four arg).trans (if_pos h)
  · exact (decode_opcode_five arg).trans (if_pos h)

/-- An illegal word is answered `ERR_ILLEGAL`, and the block is left as it was (60_exceptions.md rule R141). -/
theorem step_of_illegal {s : State} {w : CmdWord} (hs : s.inProgress = some (.command w)) (hw : decode w = none) :
    step s = .next { s with inProgress := none, outstanding := some (errorResponse .illegal) } := by
  rw [step_of_command hs, commandStep_of_illegal s.block hw]
  rfl

-- ## The characters of a response's string

/-- The character is one of the ten digits (rule R60). -/
def IsDigitChar (c : Byte) : Prop := ∃ v < 10, c = digitChar v

/-- The character is one that the formatter writes: a digit or the separator. -/
def IsNumeralChar (c : Byte) : Prop := IsDigitChar c ∨ c = Config.sep

theorem isDigitChar_digitChar {v : Nat} (h : v < 10) : IsDigitChar (digitChar v) := ⟨v, h, rfl⟩

theorem isDigitChar_bitChar (b : Bool) : IsDigitChar (bitChar b) :=
  isDigitChar_digitChar (by cases b <;> decide)

/-- The code 0x00 is neither a digit's nor the separator's (log entry 6). -/
theorem not_isNumeralChar_zero : ¬ IsNumeralChar 0x00#8 := by
  have hdigit : ∀ v < 10, 0x00#8 ≠ digitChar v := by decide
  rintro (⟨v, hv, h⟩ | h)
  · exact hdigit v hv h
  · exact absurd h (by decide)

theorem isDigitChar_of_mem_digitsBelow {d : Decimal} {m : Nat} {c : Byte} (h : c ∈ digitsBelow d m) :
    IsDigitChar c := by
  induction m with
  | zero => simp at h
  | succ j ih =>
    rw [digitsBelow_succ, List.mem_cons] at h
    rcases h with rfl | h
    · exact isDigitChar_bitChar _
    · exact ih h

theorem isDigitChar_of_mem_minbin {d : Decimal} {c : Byte} (h : c ∈ minbin d) : IsDigitChar c := by
  rw [minbin] at h
  split at h
  · rw [List.mem_singleton.mp h]
    exact isDigitChar_digitChar (by decide)
  · exact isDigitChar_of_mem_digitsBelow h

theorem isDigitChar_of_mem_pad {d : Decimal} {c : Byte} (h : c ∈ pad d) : IsDigitChar c := by
  rw [pad, List.mem_append] at h
  rcases h with h | h
  · rw [List.eq_of_mem_replicate h]
    exact isDigitChar_digitChar (by decide)
  · exact isDigitChar_of_mem_minbin h

/-- Grouping adds separators and no other character (42_binary_formatter.md rule R115). -/
theorem mem_groupRest {t : Str} {c : Byte} (h : c ∈ groupRest t) : c ∈ t ∨ c = Config.sep := by
  induction t with
  | nil => simp at h
  | cons x t ih =>
    have hc : c = Config.sep ∨ c = x ∨ c ∈ groupRest t := by
      rw [groupRest_cons] at h
      split at h
      · simpa using h
      · exact .inr (by simpa using h)
    rcases hc with hsep | rfl | hrest
    · exact .inr hsep
    · exact .inl (.head _)
    · exact (ih hrest).imp_left (.tail _)

theorem mem_group4 {t : Str} {c : Byte} (h : c ∈ group4 t) : c ∈ t ∨ c = Config.sep := by
  cases t with
  | nil => simp at h
  | cons x t =>
    rw [group4_cons, List.mem_cons] at h
    rcases h with rfl | h
    · exact .inl (.head _)
    · exact (mem_groupRest h).imp_left (.tail _)

theorem isNumeralChar_of_mem_fmt {p : Build} {d : Decimal} {c : Byte} (h : c ∈ fmt p d) : IsNumeralChar c := by
  cases hp : p.padPolicy with
  | padded =>
    rw [fmt_padded hp] at h
    exact (mem_group4 h).imp_left isDigitChar_of_mem_pad
  | unpadded =>
    rw [fmt_unpadded hp] at h
    exact (mem_group4 h).imp_left isDigitChar_of_mem_minbin

theorem isDigitChar_of_mem_decDigits {fuel n : Nat} {c : Byte} (h : c ∈ decDigits fuel n) : IsDigitChar c := by
  induction fuel generalizing n with
  | zero => simp [decDigits] at h
  | succ f ih =>
    rw [decDigits] at h
    split at h
    · rw [List.mem_singleton.mp h]
      exact isDigitChar_digitChar ‹_›
    · rw [List.mem_append, List.mem_singleton] at h
      rcases h with h | rfl
      · exact ih h
      · exact isDigitChar_digitChar (Nat.mod_lt n (by decide))

/-- A display string is made of its labels' characters, digits and separators (42_binary_formatter.md rule R122). -/
theorem mem_displayForm {p : Build} {d : Decimal} {c : Byte} (h : c ∈ displayForm p (makeFormattedNumber p d)) :
    c ∈ p.labelDec ∨ c ∈ p.labelBin ∨ IsNumeralChar c := by
  simp only [displayForm, makeFormattedNumber_decimal, makeFormattedNumber_binary, List.mem_append] at h
  rcases h with ((h | h) | h) | h
  · exact .inl h
  · exact .inr (.inr (.inl (isDigitChar_of_mem_decDigits h)))
  · exact .inr (.inl h)
  · exact .inr (.inr (isNumeralChar_of_mem_fmt h))

/-- The octet and byte operations answer no string, and the formatter's two write digits, separators and labels only
(30_encoding.md rule R59). -/
theorem mem_perform_str {p : Build} {i : Instr} {k : Block} {c : Byte} (h : c ∈ (perform p i k).2.str) :
    c ∈ p.labelDec ∨ c ∈ p.labelBin ∨ IsNumeralChar c := by
  cases i with
  | bools2bits | byte2bits => cases h
  | bits2bools e =>
    simp only [perform, blockBits2bools] at h
    split at h <;> cases h
  | bits2byte e =>
    simp only [perform, blockBits2byte] at h
    split at h <;> cases h
  | fmtnum d => exact .inr (.inr (isNumeralChar_of_mem_fmt h))
  | display d => exact mem_displayForm h

theorem mem_respond_str {p : Build} {w : CmdWord} {c : Byte} (h : c ∈ (respond p w).str) :
    c ∈ p.labelDec ∨ c ∈ p.labelBin ∨ IsNumeralChar c := by
  rw [respond] at h
  cases hw : decode w with
  | none =>
    rw [commandStep_of_illegal _ hw] at h
    cases h
  | some i =>
    rw [commandStep_of_legal _ hw] at h
    exact mem_perform_str h

-- ## The lanes of a fixed-width port

@[simp] theorem lanes_length (p : Build) (r : Response) : (r.lanes p).length = strMax p := by
  simp [Response.lanes]

theorem lanes_getElem? (r : Response) {p : Build} {j : Nat} (h : j < strMax p) :
    (r.lanes p)[j]? = some (r.lane j) := by
  simp [Response.lanes, h]

/-- The lanes at and above `str_len` are driven with 0x00 (rule R61). -/
theorem lane_of_strLen_le {r : Response} {j : Nat} (h : r.strLen ≤ j) : r.lane j = 0x00#8 :=
  List.getD_eq_default _ _ h

-- ## The obligations

/-- Settles O37: the lanes are read off one by one, and a string's characters are its labels', digits and separators,
of which only a label's can have the code 0x00. -/
theorem stringLanesOfThePort : Obligations.StringLanesOfThePort := by
  refine ⟨fun p r => ⟨lanes_length p r, fun j => lanes_getElem? r⟩, fun r j => ⟨fun c hc => ?_, lane_of_strLen_le⟩,
    fun p w h => ?_⟩
  · obtain ⟨hj, -⟩ := List.getElem?_eq_some_iff.mp hc
    exact ⟨hj, lane_of_getElem? hc⟩
  · exact (mem_respond_str h).imp_right (Or.resolve_right · not_isNumeralChar_zero)

/-- Settles O1: the decoder's equation of each opcode, its reserved bits being 0, and the elements' places on the bus. -/
theorem operandsComeFromTheirFields : Obligations.OperandsComeFromTheirFields := by
  refine fun arg => ⟨fun h => ?_, ?_, fun h => ?_⟩
  · refine ⟨boolOctetOfBus (arg.extractLsb' 0 8), ?_, fun i => ?_, ?_⟩
    · exact (decode_opcode_zero arg).trans (if_neg (not_not_intro h))
    · rw [boolOctetOfBus_get, BitVec.getLsbD_extractLsb', Nat.zero_add]
      simp [show 7 - i.val < 8 by omega]
    · exact (decode_opcode_three arg).trans (if_neg (not_not_intro h))
  · exact ⟨intOctetOfBus arg, decode_opcode_one arg, decode_opcode_two arg, intOctetOfBus_get arg⟩
  · exact ⟨(decode_opcode_four arg).trans (if_neg (not_not_intro h)),
      (decode_opcode_five arg).trans (if_neg (not_not_intro h))⟩

/-- Settles O2: a reserved opcode decodes to nothing, and an illegal word is answered `ERR_ILLEGAL`. -/
theorem reservedOpcodesAreAnsweredIllegal : Obligations.ReservedOpcodesAreAnsweredIllegal :=
  fun _ _ arg hop hs => step_of_illegal hs (decode_reserved_opcode arg hop)

/-- Settles O3: with a reserved bit set the word decodes to nothing, and an illegal word is answered `ERR_ILLEGAL`. -/
theorem setReservedBitsAreAnsweredIllegal : Obligations.SetReservedBitsAreAnsweredIllegal := by
  rintro s op arg (⟨hop, h⟩ | ⟨hop, h⟩) hs
  · exact step_of_illegal hs (decode_reserved_bit_above8 hop h)
  · exact step_of_illegal hs (decode_reserved_bit_above32 hop h)

end Sys2Proof.Proofs
end

section
/-! PROOFS. The boolean and bit family (40_boolean_bit_conversion.md rules R80 to R84) and the element check of strict
builds, which BITS2BOOLS shares with BITS2BYTE (41_octet_byte_conversion.md rule R92, 60_exceptions.md rule R142). -/

namespace Sys2Proof.Proofs

open Sys2Proof Sys2Proof.Machine Sys2Proof.Laws

-- ## Octets and their words

/-- An integer octet read back from the bus it was put on. -/
@[simp] theorem intOctetOfBus_intOctetToBus (e : Octet Byte) : intOctetOfBus (intOctetToBus e) = e :=
  octet_ext fun i => by rw [intOctetOfBus_get, intOctetToBus_lane]

/-- A boolean octet read back from the bus it was put on. -/
@[simp] theorem boolOctetOfBus_boolOctetToBus (b : Octet Bool) : boolOctetOfBus (boolOctetToBus b) = b :=
  octet_ext fun i => by rw [boolOctetOfBus_get, boolOctetToBus_lane]

/-- Below bit 8, zeros on top of a byte leave the bits of the byte. -/
theorem zeros_append_byte_getLsbD (x : Byte) (i : Fin 8) :
    (0#56 ++ x : Bus).getLsbD (7 - i.val) = x.getLsbD (7 - i.val) := by
  rw [BitVec.getLsbD_append, if_pos (by omega)]

theorem decode_encode_bools2bits (b : Octet Bool) : decode (encode (.bools2bits b)) = some (.bools2bits b) := by
  rw [encode, decode_opcode_zero, reservedAbove8_append, if_neg (by decide), BitVec.extractLsb'_append_eq_right,
    boolOctetOfBus_boolOctetToBus]

theorem decode_encode_bits2bools (e : Octet Byte) : decode (encode (.bits2bools e)) = some (.bits2bools e) := by
  rw [encode, decode_opcode_one, intOctetOfBus_intOctetToBus]

/-- The response to a legal word is its operation's, on any block. -/
theorem respond_of_legal {p : Build} {w : CmdWord} {i : Instr} (k : Block) (h : decode w = some i) :
    respond p w = (perform p i k).2 := by
  rw [← commandStep_response p k w, commandStep_of_legal k h]

-- ## The two operations and their lanes

theorem perform_bools2bits (p : Build) (b : Octet Bool) (k : Block) :
    perform p (.bools2bits b) k = (k, ⟨.ok, .none, intOctetToBus (b.map bitOfBool), []⟩) := rfl

/-- In a lenient build BITS2BOOLS answers every octet (rule R81). -/
theorem perform_bits2bools {p : Build} (hp : p.strict = false) (e : Octet Byte) (k : Block) :
    perform p (.bits2bools e) k = (k, ⟨.ok, .none, 0#56 ++ boolOctetToBus (e.map (· == 0x01#8)), []⟩) :=
  blockBits2bools_ok k (by rw [hp, Bool.false_and])

/-- Lane `i` of the data of BOOLS2BITS (rule R80). -/
theorem bools2bits_lane (b : Octet Bool) (i : Fin 8) :
    (intOctetToBus (b.map bitOfBool)).extractLsb' (56 - 8 * i.val) 8 = bitOfBool (b.get i) := by
  rw [intOctetToBus_lane, get_map]

/-- Bit `7-i` of the byte that BITS2BOOLS answers (rule R81). -/
theorem bits2bools_lane (e : Octet Byte) (i : Fin 8) :
    (boolOctetToBus (e.map (· == 0x01#8))).getLsbD (7 - i.val) = (e.get i == 0x01#8) := by
  rw [boolOctetToBus_lane, get_map]

-- ## The element check of strict builds

/-- The operation ends in an element error in build `p`: the build is strict and the integer octet is dirty. -/
def rejects (p : Build) : Instr → Bool
  | .bits2bools e | .bits2byte e => p.strict && !isClean e
  | _ => false

theorem rejects_of_lenient {p : Build} (hp : p.strict = false) (i : Instr) : rejects p i = false := by
  cases i <;> simp [rejects, hp]

/-- A dirty octet is one with an element above 1. -/
theorem isClean_eq_false_iff (e : Octet Byte) : isClean e = false ↔ ∃ i, 1 < (e.get i).toNat := by
  rw [← Bool.not_eq_true, isClean_iff]
  simp

theorem rejects_iff (p : Build) (i : Instr) :
    rejects p i = true ↔
      p.strict = true ∧ ∃ e, (i = .bits2bools e ∨ i = .bits2byte e) ∧ ∃ j, 1 < (e.get j).toNat := by
  cases i with
  | bits2bools e | bits2byte e => simp [rejects, isClean_eq_false_iff]
  | bools2bits | byte2bits | fmtnum | display => simp [rejects]

/-- A rejected operation leaves the block and answers the element error (rules R83 and R92). -/
theorem perform_of_rejects {p : Build} {i : Instr} (k : Block) (h : rejects p i = true) :
    perform p i k = (k, ⟨.errInvalidInput, .elementDomain, 0, []⟩) := by
  cases i with
  | bits2bools e | bits2byte e => exact if_pos h
  | bools2bits | byte2bits | fmtnum | display => cases h

/-- An operation that is not rejected does what it does in the lenient build. -/
theorem perform_of_not_rejects {p : Build} {i : Instr} (k : Block) (h : rejects p i = false) :
    perform p i k = perform { p with strict := false } i k := by
  cases i with
  | bits2bools e => exact (blockBits2bools_ok k h).trans (perform_bits2bools rfl e k).symm
  | bits2byte e => exact (blockBits2byte_ok k h).trans (blockBits2byte_ok k rfl).symm
  | bools2bits | byte2bits | fmtnum | display => rfl

/-- An operation that is not rejected ends `OK` with kind 0. -/
theorem perform_ok_of_not_rejects {p : Build} {i : Instr} (k : Block) (h : rejects p i = false) :
    (perform p i k).2.status = .ok ∧ (perform p i k).2.kind = .none := by
  cases i with
  | bits2bools e => rw [perform, blockBits2bools_ok k h]; exact ⟨rfl, rfl⟩
  | bits2byte e => rw [perform, blockBits2byte_ok k h]; exact ⟨rfl, rfl⟩
  | bools2bits | byte2bits | fmtnum | display => exact ⟨rfl, rfl⟩

/-- The word is rejected in build `p`: it decodes to an operation that is. -/
def RejectsWord (p : Build) (w : CmdWord) : Prop := ∃ i, decode w = some i ∧ rejects p i = true

theorem not_rejectsWord_of_lenient {p : Build} (hp : p.strict = false) (w : CmdWord) : ¬ RejectsWord p w := by
  rintro ⟨i, -, h⟩
  rw [rejects_of_lenient hp] at h
  cases h

/-- What a word is answered, by whether it is rejected: the element error, or what the lenient build answers. -/
theorem commandStep_cases (p : Build) (k : Block) (w : CmdWord) :
    (RejectsWord p w ∧ commandStep p k w = (k, ⟨.errInvalidInput, .elementDomain, 0, []⟩)) ∨
    (¬ RejectsWord p w ∧ commandStep p k w = commandStep { p with strict := false } k w ∧
      (commandStep p k w).2.status ≠ .errInvalidInput ∧ (commandStep p k w).2.kind = .none) := by
  cases hw : decode w with
  | none =>
    refine .inr ⟨fun ⟨i, hi, _⟩ => by simp [hw] at hi, ?_⟩
    rw [commandStep_of_illegal k hw, commandStep_of_illegal k hw]
    exact ⟨rfl, nofun, rfl⟩
  | some i =>
    have hrej : RejectsWord p w ↔ rejects p i = true := by simp [RejectsWord, hw]
    simp only [commandStep_of_legal k hw, hrej]
    cases h : rejects p i with
    | true => exact .inl ⟨rfl, perform_of_rejects k h⟩
    | false =>
      obtain ⟨hstatus, hkind⟩ := perform_ok_of_not_rejects k h
      exact .inr ⟨by decide, perform_of_not_rejects k h, by rw [hstatus]; nofun, hkind⟩

-- ## Which words are rejected

/-- Opcode 1 is BITS2BOOLS and nothing else is. -/
theorem decode_eq_bits2bools_iff (w : CmdWord) (e : Octet Byte) :
    decode w = some (.bits2bools e) ↔ opcodeOf w = 1 ∧ intOctetOfBus (argOf w) = e := by
  rw [← BitVec.toNat_inj]
  unfold decode
  split <;> simp_all

/-- Opcode 2 is BITS2BYTE and nothing else is. -/
theorem decode_eq_bits2byte_iff (w : CmdWord) (e : Octet Byte) :
    decode w = some (.bits2byte e) ↔ opcodeOf w = 2 ∧ intOctetOfBus (argOf w) = e := by
  rw [← BitVec.toNat_inj]
  unfold decode
  split <;> simp_all

/-- Element `i` of the integer octet of a word, at its place in the word (20_memory.md rule R42). -/
theorem intOctetOfBus_argOf_get (w : CmdWord) (i : Fin 8) :
    (intOctetOfBus (argOf w)).get i = w.extractLsb' (56 - 8 * i.val) 8 := by
  rw [intOctetOfBus_get, argOf, BitVec.extractLsb'_extractLsb'_of_le (by omega)]

theorem rejectsWord_iff (p : Build) (w : CmdWord) :
    RejectsWord p w ↔
      p.strict = true ∧ (opcodeOf w = 1 ∨ opcodeOf w = 2) ∧
        ∃ i : Fin 8, 1 < (w.extractLsb' (56 - 8 * i.val) 8).toNat := by
  simp only [← intOctetOfBus_argOf_get, RejectsWord, rejects_iff]
  constructor
  · rintro ⟨i, hw, hp, e, rfl | rfl, hdirty⟩
    · obtain ⟨hop, rfl⟩ := (decode_eq_bits2bools_iff w e).mp hw
      exact ⟨hp, .inl hop, hdirty⟩
    · obtain ⟨hop, rfl⟩ := (decode_eq_bits2byte_iff w e).mp hw
      exact ⟨hp, .inr hop, hdirty⟩
  · rintro ⟨hp, hop | hop, hdirty⟩
    · exact ⟨_, (decode_eq_bits2bools_iff w _).mpr ⟨hop, rfl⟩, hp, _, .inl rfl, hdirty⟩
    · exact ⟨_, (decode_eq_bits2byte_iff w _).mpr ⟨hop, rfl⟩, hp, _, .inr rfl, hdirty⟩

-- ## The obligations

/-- Settles O17: the lane functions are `bitOfBool` and the comparison with 1. -/
theorem lanesAreIndependent : Obligations.LanesAreIndependent := by
  refine ⟨⟨bitOfBool, fun b i => ?_⟩, ⟨(· == 0x01#8), fun e i => ?_⟩⟩
  · rw [respond_of_legal Block.reset (decode_encode_bools2bits b), perform_bools2bits]
    exact bools2bits_lane b i
  · rw [respond_of_legal Block.reset (decode_encode_bits2bools e), perform_bits2bools rfl]
    exact (zeros_append_byte_getLsbD _ i).trans (bits2bools_lane e i)

/-- Settles O35: a word is either rejected, and answered the element error, or answered as the lenient build answers
it; and which words are rejected is read off the decoder. -/
theorem strictBuildsRejectDirtyOctets : Obligations.StrictBuildsRejectDirtyOctets := by
  intro p k w
  have hhere : (commandStep Config.build k w).2.status ≠ .errInvalidInput := by
    obtain ⟨hrej, -⟩ | ⟨-, -, hstatus, -⟩ := commandStep_cases Config.build k w
    · exact absurd hrej (not_rejectsWord_of_lenient rfl w)
    · exact hstatus
  obtain ⟨hrej, hstep⟩ | ⟨hrej, hlenient, hstatus, hkind⟩ := commandStep_cases p k w
  · have hstatus : (commandStep p k w).2.status = .errInvalidInput := by rw [hstep]
    exact ⟨iff_of_true hstatus ((rejectsWord_iff p w).mp hrej), fun _ => hstep, absurd hstatus, hhere,
      by rw [hstep]; nofun⟩
  · exact ⟨iff_of_false hstatus (mt (rejectsWord_iff p w).mpr hrej), fun h => absurd h hstatus, fun _ => hlenient,
      hhere, by rw [hkind]; nofun⟩

/-- Settles O9: the fields of the word as `encode` puts them together, and the data lane by lane. -/
theorem bools2bitsMapsEachBoolean : Obligations.Bools2bitsMapsEachBoolean := by
  refine fun b s => ⟨⟨opcodeOf_append 0#3 _, ?_, fun i => ?_⟩,
    intOctetToBus (b.map bitOfBool), exec_eq_deliver _ s, bools2bits_lane b⟩
  · rw [encode, BitVec.extractLsb'_append_eq_of_add_le (by decide), BitVec.extractLsb'_append_eq_left]
    rfl
  · rw [encode, BitVec.getLsbD_append, if_pos (by omega), zeros_append_byte_getLsbD, boolOctetToBus_lane]

/-- Settles O10: the fields of the word as `encode` puts them together, and the answered byte bit by bit. -/
theorem bits2boolsComparesWithOne : Obligations.Bits2boolsComparesWithOne := by
  refine fun e s => ⟨⟨opcodeOf_append 1#3 _, fun i => ?_⟩,
    boolOctetToBus (e.map (· == 0x01#8)), ?_, fun i => ?_⟩
  · rw [encode, BitVec.extractLsb'_append_eq_of_add_le (by omega), intOctetToBus_lane]
  · rw [exec_eq_deliver, perform_bits2bools rfl]
    rfl
  · rw [bits2bools_lane, beq_iff_eq]
    rfl

end Sys2Proof.Proofs
end

section
/-! PROOFS. The octet and byte family (41_octet_byte_conversion.md rules R90 to R94): the bits the accumulator packs, and
the byte an unpacked octet packs to. -/

namespace Sys2Proof.Proofs

open Sys2Proof Sys2Proof.Machine Sys2Proof.Laws

-- ## One step of the accumulator, bit by bit (rules R90 and R91)

/-- A step of the accumulator does not see the seven upper bits of the element. -/
theorem packStep_lowBit (a x : Byte) : packStep a (x &&& 1) = packStep a x := by
  rw [packStep, packStep, BitVec.and_assoc]
  rfl

theorem lowBit_getLsbD (x : Byte) (j : Nat) : (x &&& 1).getLsbD j = (x.getLsbD j && decide (j = 0)) := by
  simp [Bool.and_comm]

theorem packStep_getLsbD_zero (a x : Byte) : (packStep a x).getLsbD 0 = x.getLsbD 0 := by
  simp [packStep]

theorem packStep_getLsbD_succ (a x : Byte) {j : Nat} (hj : j + 1 < 8) :
    (packStep a x).getLsbD (j + 1) = a.getLsbD j := by
  simp [packStep, hj, BitVec.getLsbD_eq_getElem (show j < 8 by omega)]

/-- Two elements have the same low bit when bit 0 is the same. -/
theorem lowBit_eq_iff (x y : Byte) : x &&& 1 = y &&& 1 ↔ x.getLsbD 0 = y.getLsbD 0 := by
  constructor
  · intro h
    simpa [lowBit_getLsbD] using congrArg (·.getLsbD 0) h
  · intro h
    refine BitVec.eq_of_getLsbD_eq fun j _ => ?_
    rw [lowBit_getLsbD, lowBit_getLsbD]
    cases j with
    | zero => rw [h]
    | succ j => simp

-- ## The accumulator after `k` elements

@[simp] theorem accAfter_zero (e : Octet Byte) : accAfter e 0 = 0 := rfl

/-- The recurrence of rule R90. -/
theorem accAfter_succ (e : Octet Byte) (k : Fin 8) :
    accAfter e (k.val + 1) = packStep (accAfter e k.val) (e.get k) := by
  fin_cases k <;> rfl

/-- Elements with the same low bits leave the same accumulator. -/
theorem accAfter_map_lowBit (e : Octet Byte) {k : Nat} (hk : k ≤ 8) :
    accAfter (e.map fun x => x &&& 1) k = accAfter e k := by
  induction k with
  | zero => rfl
  | succ k ih =>
    rw [accAfter_succ _ ⟨k, hk⟩, accAfter_succ _ ⟨k, hk⟩, get_map, packStep_lowBit, ih (by omega)]

/-- After `k + 1` elements bit `j` of the accumulator is the low bit of element `k - j`. -/
theorem accAfter_succ_getLsbD (e : Octet Byte) {k j : Nat} (hk : k < 8) (hj : j ≤ k) :
    (accAfter e (k + 1)).getLsbD j = (e.get ⟨k - j, by omega⟩).getLsbD 0 := by
  rw [accAfter_succ e ⟨k, hk⟩]
  induction j generalizing k with
  | zero => exact packStep_getLsbD_zero _ _
  | succ j ih =>
    obtain ⟨k, rfl⟩ : ∃ k', k = k' + 1 := ⟨k - 1, by omega⟩
    rw [packStep_getLsbD_succ _ _ (by omega), accAfter_succ e ⟨k, by omega⟩, ih (by omega) (by omega)]
    simp only [Nat.add_sub_add_right]

/-- Bit `7-i` of the packed byte is the low bit of element `i`. -/
theorem packed_getLsbD (e : Octet Byte) (i : Fin 8) :
    (accAfter e 8).getLsbD (7 - i.val) = (e.get i).getLsbD 0 := by
  rw [accAfter_succ_getLsbD e (k := 7) (by omega) (by omega)]
  congr
  omega

/-- Two bytes that agree at bit `7-i` for every lane `i` are the same byte. -/
theorem byte_ext_of_lanes {x y : Byte} (h : ∀ i : Fin 8, x.getLsbD (7 - i.val) = y.getLsbD (7 - i.val)) : x = y := by
  refine BitVec.eq_of_getLsbD_eq fun j hj => ?_
  have hlane := h ⟨7 - j, by omega⟩
  rwa [show 7 - (7 - j) = j by omega] at hlane

/-- The packed byte is the low bits and nothing less (rule R91). -/
theorem packed_eq_iff (e f : Octet Byte) :
    accAfter e 8 = accAfter f 8 ↔ ∀ i, e.get i &&& 1 = f.get i &&& 1 := by
  simp only [lowBit_eq_iff, ← packed_getLsbD]
  exact ⟨fun h i => by rw [h], byte_ext_of_lanes⟩

-- ## The two operations

/-- In a lenient build BITS2BYTE leaves the packed byte in `ACC` and answers it (rule R90). -/
theorem perform_bits2byte {p : Build} (hp : p.strict = false) (e : Octet Byte) (k : Block) :
    perform p (.bits2byte e) k = (⟨accAfter e 8⟩, ⟨.ok, .none, 0#56 ++ accAfter e 8, []⟩) :=
  blockBits2byte_ok k (by rw [hp, Bool.false_and])

theorem perform_byte2bits (p : Build) (n : Byte) (k : Block) :
    perform p (.byte2bits n) k = (k, ⟨.ok, .none, intOctetToBus (unpackByte n), []⟩) := rfl

theorem exec_bits2byte (e : Octet Byte) (s : State) :
    exec (.bits2byte e) s =
      .next { s with block := ⟨accAfter e 8⟩, outstanding := some ⟨.ok, .none, 0#56 ++ accAfter e 8, []⟩ } := by
  rw [exec_eq_deliver, perform_bits2byte rfl]
  rfl

/-- What BITS2BYTE does is told by the byte it packs, which `ACC` then holds. -/
theorem exec_bits2byte_eq_iff (e f : Octet Byte) (s : State) :
    exec (.bits2byte e) s = exec (.bits2byte f) s ↔ accAfter e 8 = accAfter f 8 := by
  rw [exec_bits2byte, exec_bits2byte]
  refine ⟨fun h => ?_, fun h => by rw [h]⟩
  injection h with hstate
  exact congrArg (·.block.acc) hstate

theorem decode_encode_byte2bits (n : Byte) : decode (encode (.byte2bits n)) = some (.byte2bits n) := by
  rw [encode, decode_opcode_three, reservedAbove8_append, if_neg (by decide), BitVec.extractLsb'_append_eq_right]

@[simp] theorem unpackByte_get (n : Byte) (i : Fin 8) : (unpackByte n).get i = (n >>> (7 - i.val)) &&& 1 :=
  get_ofFn _ i

/-- Packing the octet of a byte gives the byte (rule R94). -/
theorem packed_unpackByte (x : Byte) : accAfter (unpackByte x) 8 = x :=
  byte_ext_of_lanes fun i => by
    rw [packed_getLsbD, unpackByte_get, lowBit_getLsbD, BitVec.getLsbD_ushiftRight]
    simp

-- ## The obligations

/-- Settles O21: a state after BITS2BYTE tells the packed byte, and the packed byte tells the low bits. -/
theorem onlyLowBitsArePacked : Obligations.OnlyLowBitsArePacked := by
  refine ⟨fun e s => ?_, fun e f s => ?_⟩
  · rw [exec_bits2byte_eq_iff, accAfter_map_lowBit e le_rfl]
  · rw [exec_bits2byte_eq_iff, packed_eq_iff]

/-- Settles O11: the sequence is the accumulator after `k` elements. -/
theorem bits2byteShiftsAndOrsEightTimes : Obligations.Bits2byteShiftsAndOrsEightTimes := by
  refine fun e s => ⟨⟨opcodeOf_append 2#3 _, fun i => ?_⟩,
    accAfter e, accAfter_zero e, accAfter_succ e, exec_bits2byte e s⟩
  rw [encode, BitVec.extractLsb'_append_eq_of_add_le (by omega), intOctetToBus_lane]

/-- Settles O12: the fields of the word as `encode` puts them together, and the data lane by lane. -/
theorem byte2bitsShiftsAndMasks : Obligations.Byte2bitsShiftsAndMasks := by
  refine fun n s => ⟨⟨opcodeOf_append 3#3 _, ?_, ?_⟩,
    intOctetToBus (unpackByte n), exec_eq_deliver _ s, fun i => ?_⟩
  · rw [encode, BitVec.extractLsb'_append_eq_of_add_le (by decide), BitVec.extractLsb'_append_eq_left]
    rfl
  · rw [encode, BitVec.extractLsb'_append_eq_of_add_le (by decide), BitVec.extractLsb'_append_eq_right]
  · rw [intOctetToBus_lane, unpackByte_get]

/-- Settles O19: BYTE2BITS answers the octet of `x` on the bus, BITS2BYTE reads that octet back and packs it. -/
theorem unpackThenPackIsTheByte : Obligations.UnpackThenPackIsTheByte := by
  intro x
  have hunpack : (respond Config.build (3#3 ++ (0#56 ++ x : Bus))).data = intOctetToBus (unpackByte x) := by
    have hdecode : decode (3#3 ++ (0#56 ++ x : Bus)) = some (.byte2bits x) := decode_encode_byte2bits x
    rw [respond_of_legal Block.reset hdecode, perform_byte2bits]
  rw [hunpack, respond_of_legal Block.reset (decode_opcode_two _), perform_bits2byte rfl,
    intOctetOfBus_intOctetToBus, packed_unpackByte]

end Sys2Proof.Proofs
end

section
/-! PROOFS. The binary formatter (42_binary_formatter.md rules R111, R115, R117, R120 and R124): the minimal digits, their
grouping position by position, and the answers of FMTNUM and DISPLAY. -/

namespace Sys2Proof.Proofs

open Sys2Proof Sys2Proof.Machine Sys2Proof.Laws

-- ## The minimal digits (rule R111)

/-- Digit `j` of the `m` low bits is that of bit `m-1-j`. -/
theorem digitsBelow_getElem? (d : Decimal) {m j : Nat} (hj : j < m) :
    (digitsBelow d m)[j]? = some (bitChar (d.getLsbD (m - 1 - j))) := by
  induction m generalizing j with
  | zero => omega
  | succ m ih =>
    cases j with
    | zero => rfl
    | succ j =>
      rw [digitsBelow_succ, List.getElem?_cons_succ, ih (by omega), show m + 1 - 1 - (j + 1) = m - 1 - j by omega]

/-- No bit is set from the length on, so the number is below that power of two. -/
theorem toNat_lt_two_pow_lengthBelow (d : Decimal) : d.toNat < 2 ^ lengthBelow d 32 := by
  refine Nat.lt_pow_two_of_testBit _ fun j hj => ?_
  rw [BitVec.testBit_toNat]
  rcases Nat.lt_or_ge j 32 with hlt | hge
  · exact lengthBelow_above hj hlt
  · exact BitVec.getLsbD_of_ge d j hge

theorem lengthBelow_ne_zero {d : Decimal} (hd : d ≠ 0) : lengthBelow d 32 ≠ 0 := by
  intro h
  have hlt := toNat_lt_two_pow_lengthBelow d
  rw [h, pow_zero, Nat.lt_one_iff] at hlt
  exact hd (BitVec.eq_of_toNat_eq hlt)

theorem one_le_lengthBelow {d : Decimal} (hd : d ≠ 0) : 1 ≤ lengthBelow d 32 :=
  Nat.one_le_iff_ne_zero.mpr (lengthBelow_ne_zero hd)

/-- The bit under the length is set. -/
theorem getLsbD_lengthBelow_sub_one {d : Decimal} (hd : d ≠ 0) : d.getLsbD (lengthBelow d 32 - 1) = true :=
  lengthBelow_bit (Nat.sub_add_cancel (one_le_lengthBelow hd)).symm

theorem two_pow_lengthBelow_sub_one_le_toNat {d : Decimal} (hd : d ≠ 0) : 2 ^ (lengthBelow d 32 - 1) ≤ d.toNat :=
  Nat.ge_two_pow_of_testBit ((BitVec.testBit_toNat d).trans (getLsbD_lengthBelow_sub_one hd))

@[simp] theorem minbin_zero : minbin 0 = [digitChar 0] := rfl

theorem minbin_of_ne_zero {d : Decimal} (hd : d ≠ 0) : minbin d = digitsBelow d (lengthBelow d 32) := if_neg hd

theorem minbin_getElem? {d : Decimal} (hd : d ≠ 0) {j : Nat} (hj : j < lengthBelow d 32) :
    (minbin d)[j]? = some (bitChar (d.getLsbD (lengthBelow d 32 - 1 - j))) := by
  rw [minbin_of_ne_zero hd, digitsBelow_getElem? d hj]

theorem minbin_length_of_ne_zero {d : Decimal} (hd : d ≠ 0) : (minbin d).length = lengthBelow d 32 := by
  rw [minbin_of_ne_zero hd, digitsBelow_length]

/-- The minimal digits begin with 1. -/
theorem minbin_head? {d : Decimal} (hd : d ≠ 0) : (minbin d).head? = some (digitChar 1) := by
  rw [List.head?_eq_getElem?, minbin_getElem? hd (one_le_lengthBelow hd), Nat.sub_zero,
    getLsbD_lengthBelow_sub_one hd]
  rfl

theorem minbin_length_bounds (d : Decimal) : 1 ≤ (minbin d).length ∧ (minbin d).length ≤ 32 := by
  by_cases hd : d = 0
  · subst hd
    decide
  · rw [minbin_length_of_ne_zero hd]
    exact ⟨one_le_lengthBelow hd, lengthBelow_le d 32⟩

-- ## Grouping (rule R115)

/-- After the first digit, a separator stands before each digit from which a multiple of four remains. -/
theorem groupRest_eq_flatMap (t : Str) :
    groupRest t = (List.range t.length).flatMap fun j =>
      if (t.length - j) % 4 = 0 then [Config.sep, t.getD j 0] else [t.getD j 0] := by
  induction t with
  | nil => rfl
  | cons c t ih =>
    simp only [groupRest_cons, List.length_cons, List.range_succ_eq_map, List.flatMap_cons, List.flatMap_map,
      Nat.succ_eq_add_one, Nat.add_sub_add_right, List.getD_cons_succ, List.getD_cons_zero, Nat.sub_zero, ← ih]
    split <;> rfl

theorem groupRest_length (t : Str) : (groupRest t).length = t.length + t.length / 4 := by
  induction t with
  | nil => rfl
  | cons c t ih =>
    rw [groupRest_cons]
    split <;> simp only [List.length_cons, ih] <;> omega

theorem group4_length (t : Str) : (group4 t).length = t.length + (t.length - 1) / 4 := by
  cases t with
  | nil => rfl
  | cons c t =>
    rw [group4_cons, List.length_cons, List.length_cons, groupRest_length, Nat.add_sub_cancel]
    omega

-- ## The words and the answers of FMTNUM and DISPLAY

/-- The fields of a word with a 32-bit operand: its opcode, the reserved bits 0, and the operand (30_encoding.md
rule R57). -/
theorem decimalWord_fields (op : BitVec 3) (d : Decimal) :
    (op ++ (0#32 ++ d : Bus) : CmdWord).extractLsb' 64 3 = op ∧
    (op ++ (0#32 ++ d : Bus) : CmdWord).extractLsb' 32 32 = 0 ∧
    (op ++ (0#32 ++ d : Bus) : CmdWord).extractLsb' 0 32 = d := by
  refine ⟨opcodeOf_append op _, ?_, ?_⟩
  · rw [BitVec.extractLsb'_append_eq_of_add_le (by decide), BitVec.extractLsb'_append_eq_left]
    rfl
  · rw [BitVec.extractLsb'_append_eq_of_add_le (by decide), BitVec.extractLsb'_append_eq_right]

theorem perform_fmtnum (p : Build) (d : Decimal) (k : Block) :
    perform p (.fmtnum d) k = (k, ⟨.ok, .none, 0#32 ++ d, fmt p d⟩) := rfl

theorem displayForm_makeFormattedNumber (p : Build) (d : Decimal) :
    displayForm p (makeFormattedNumber p d) = p.labelDec ++ dec d ++ p.labelBin ++ fmt p d := rfl

theorem perform_display (p : Build) (d : Decimal) (k : Block) :
    perform p (.display d) k = (k, ⟨.ok, .none, 0, p.labelDec ++ dec d ++ p.labelBin ++ fmt p d⟩) := rfl

-- ## The obligations

/-- Settles O24: the length is one more than the index of the highest set bit. -/
theorem minimalBinaryDigits : Obligations.MinimalBinaryDigits :=
  ⟨minbin_zero, fun d hd => ⟨lengthBelow d 32, one_le_lengthBelow hd, lengthBelow_le d 32,
    two_pow_lengthBelow_sub_one_le_toNat hd, toNat_lt_two_pow_lengthBelow d,
    minbin_length_of_ne_zero hd, minbin_head? hd, fun _ => minbin_getElem? hd⟩⟩

/-- Settles O26: the first digit has no separator, and position `j + 1` of the string is position `j` of its rest. -/
theorem groupingCountsFromTheRight : Obligations.GroupingCountsFromTheRight := by
  intro t
  cases t with
  | nil => rfl
  | cons c t =>
    rw [group4_cons, groupRest_eq_flatMap]
    simp [List.range_succ_eq_map, List.flatMap_map]

/-- Settles O29: the length of a grouped string, at the 1 to 32 minimal digits. -/
theorem unpaddedBuildGroupsTheMinimalDigits : Obligations.UnpaddedBuildGroupsTheMinimalDigits := by
  intro p d hp
  obtain ⟨hpos, hmax⟩ := minbin_length_bounds d
  rw [fmt_unpadded hp, group4_length]
  exact ⟨rfl, rfl, by omega, by omega⟩

/-- Settles O13: the fields of the word, and the record that the block answers. -/
theorem fmtnumAnswersTheRecord : Obligations.FmtnumAnswersTheRecord := by
  refine fun d s => ⟨decimalWord_fields 4#3 d, ?_⟩
  rw [exec_eq_deliver, perform_fmtnum]
  rfl

/-- Settles O14: the fields of the word, and the display form that the block answers with the labels of this build. -/
theorem displayAnswersTheDisplayForm : Obligations.DisplayAnswersTheDisplayForm := by
  refine ⟨displayForm_makeFormattedNumber, fun d s => ⟨decimalWord_fields 5#3 d, ?_⟩⟩
  rw [exec_eq_deliver, perform_display]
  rfl

end Sys2Proof.Proofs
end

section
/-! PROOFS. Errors (60_exceptions.md rules R141, R143 and R150): which words are illegal, what a command that ends in an
error leaves and answers, and the codes of status and kind. -/

namespace Sys2Proof.Proofs

open Sys2Proof Sys2Proof.Machine Sys2Proof.Laws

-- ## The words that decode to nothing (rules R62 and R63)

/-- `arg[63:8]` is `cmd[63:8]`: the operand field starts at bit 0 of the word. -/
@[simp] theorem reservedAbove8_argOf (w : CmdWord) : reservedAbove8 (argOf w) = w.extractLsb' 8 56 :=
  BitVec.extractLsb'_extractLsb'_of_le (by decide)

/-- `arg[63:32]` is `cmd[63:32]`. -/
@[simp] theorem reservedAbove32_argOf (w : CmdWord) : reservedAbove32 (argOf w) = w.extractLsb' 32 32 :=
  BitVec.extractLsb'_extractLsb'_of_le (by decide)

theorem opcode_cases (op : BitVec 3) :
    op = 0 ∨ op = 1 ∨ op = 2 ∨ op = 3 ∨ op = 4 ∨ op = 5 ∨ 6 ≤ op.toNat := by
  revert op
  decide

/-- An opcode over an operand field is illegal exactly when the opcode is reserved or a reserved bit of the operand field
is set. -/
theorem decode_append_eq_none_iff (op : BitVec 3) (arg : Bus) :
    decode (op ++ arg) = none ↔
      6 ≤ op.toNat ∨
      ((op = 0 ∨ op = 3) ∧ reservedAbove8 arg ≠ 0) ∨
      ((op = 4 ∨ op = 5) ∧ reservedAbove32 arg ≠ 0) := by
  obtain rfl | rfl | rfl | rfl | rfl | rfl | hop := opcode_cases op
  · simp [decode_opcode_zero]
  · simp [decode_opcode_one]
  · simp [decode_opcode_two]
  · simp [decode_opcode_three]
  · simp [decode_opcode_four]
  · simp [decode_opcode_five]
  · exact iff_of_true (decode_reserved_opcode arg hop) (.inl hop)

theorem decode_eq_none_iff (w : CmdWord) :
    decode w = none ↔
      6 ≤ (opcodeOf w).toNat ∨
      ((opcodeOf w = 0 ∨ opcodeOf w = 3) ∧ w.extractLsb' 8 56 ≠ 0) ∨
      ((opcodeOf w = 4 ∨ opcodeOf w = 5) ∧ w.extractLsb' 32 32 ≠ 0) := by
  simpa only [opcodeOf_append_argOf, reservedAbove8_argOf, reservedAbove32_argOf] using
    decode_append_eq_none_iff (opcodeOf w) (argOf w)

-- ## How a command ends

/-- The three ends of a command (60_exceptions.md section 2): an illegal word and a rejected operand do nothing but raise
their error, and every other command ends `OK`. -/
theorem commandStep_ends (p : Build) (k : Block) (w : CmdWord) :
    (decode w = none ∧ commandStep p k w = raiseError .illegal k) ∨
    (decode w ≠ none ∧ commandStep p k w = raiseError (.invalidInput .elementDomain) k) ∨
    (decode w ≠ none ∧ (commandStep p k w).2.status = .ok) := by
  cases hw : decode w with
  | none => exact .inl ⟨rfl, commandStep_of_illegal k hw⟩
  | some i =>
    rw [commandStep_of_legal k hw]
    cases hi : rejects p i with
    | true => exact .inr (.inl ⟨nofun, perform_of_rejects k hi⟩)
    | false => exact .inr (.inr ⟨nofun, (perform_ok_of_not_rejects k hi).1⟩)

/-- The status is `ERR_ILLEGAL` for the words that do not decode and for no other (rule R141). -/
theorem commandStep_status_eq_errIllegal_iff (p : Build) (k : Block) (w : CmdWord) :
    (commandStep p k w).2.status = .errIllegal ↔ decode w = none := by
  obtain ⟨hw, h⟩ | ⟨hw, h⟩ | ⟨hw, h⟩ := commandStep_ends p k w
  · exact iff_of_true (by rw [h]; rfl) hw
  · exact iff_of_false (by rw [h]; nofun) hw
  · exact iff_of_false (by rw [h]; nofun) hw

/-- A command whose status is not `OK` has raised one of the two errors of 60_exceptions.md section 2 and done nothing
else. -/
theorem commandStep_eq_raiseError {p : Build} {k : Block} {w : CmdWord} (h : (commandStep p k w).2.status ≠ .ok) :
    ∃ err, (err = .illegal ∨ err = .invalidInput .elementDomain) ∧ commandStep p k w = raiseError err k := by
  obtain ⟨-, hstep⟩ | ⟨-, hstep⟩ | ⟨-, hok⟩ := commandStep_ends p k w
  · exact ⟨_, .inl rfl, hstep⟩
  · exact ⟨_, .inr rfl, hstep⟩
  · exact absurd hok h

@[simp] theorem errorResponse_strLen (err : Error) : (errorResponse err).strLen = 0 := by
  rw [strLen_eq, errorResponse_str, List.length_nil]

-- ## The codes of status and kind (rule R150)

theorem statusCode_ne_three (st : Status) : statusCode st ≠ 3 := by
  cases st <;> decide

theorem kindCode_ne_three (kd : Kind) : kindCode kd ≠ 3 := by
  cases kd <;> decide

-- ## The obligations

/-- Settles O33: `ERR_ILLEGAL` answers the words that decode to nothing, and the decoder says which they are. -/
theorem illegalExactlyWhenReserved : Obligations.IllegalExactlyWhenReserved :=
  fun p k w => (commandStep_status_eq_errIllegal_iff p k w).trans (decode_eq_none_iff w)

/-- Settles O34: a command that does not end `OK` is a raised error, which keeps the block and carries nothing but its
codes. -/
theorem errorsChangeNothing : Obligations.ErrorsChangeNothing := by
  intro p k w h
  obtain ⟨err, herr, hstep⟩ := commandStep_eq_raiseError h
  rw [hstep, raiseError_block, raiseError_response]
  refine ⟨rfl, errorResponse_data err, errorResponse_strLen err, ?_⟩
  obtain rfl | rfl := herr
  · exact ⟨fun _ => rfl, nofun, fun _ => rfl⟩
  · exact ⟨nofun, fun _ => rfl, fun _ => rfl⟩

/-- Settles O36: the codes as they are defined, and no constructor's code is 3. -/
theorem codeThreeIsNeverProduced : Obligations.CodeThreeIsNeverProduced :=
  ⟨⟨rfl, rfl, rfl, statusCode_ne_three⟩, rfl, rfl, rfl, kindCode_ne_three⟩

end Sys2Proof.Proofs
end

section
/-! PROOFS. The machine's step as the block's (70_reset_and_hazards.md rules R160 and R165): the state that a delivered
command leaves, and the state that a reset leaves. -/

namespace Sys2Proof.Proofs

open Sys2Proof Sys2Proof.Machine Sys2Proof.Laws

/-- Everything a delivery writes, the block and the response, and the one row it keeps. -/
theorem deliver_eq (x : Block × Response) (s : State) : deliver x s = ⟨x.1, s.inProgress, some x.2⟩ := rfl

/-- The reset value of every row of the state (rule R160). -/
theorem state_reset_eq : State.reset = ⟨{ acc := 0 }, none, none⟩ := rfl

-- ## The obligations

/-- Settles O40: a step on a command delivers the block's step on the word, in the state with that request taken. -/
theorem oneStepPerCommand : Obligations.OneStepPerCommand := by
  intro s w hs
  rw [step_of_command hs, deliver_eq]

/-- Settles O43: a step on a reset request answers the machine right after reset, whose rows are the reset values. -/
theorem resetClearsTheAccumulator : Obligations.ResetClearsTheAccumulator := by
  refine ⟨fun s hs => ?_, state_reset_eq⟩
  rw [step_of_reset hs, state_reset_eq]

end Sys2Proof.Proofs
end

section
/-! PROOFS. Command words as a code of the operations (30_encoding.md sections 2, 5 and 6): the decoder and the encoder
undo each other, a legal word selects its own row of the opcode table and no other, and the assembler takes exactly the
literals in range. -/

namespace Sys2Proof.Proofs

open Sys2Proof Sys2Proof.Machine Sys2Proof.Laws

-- ## Decoding an operation's word (rule R57)

theorem decode_encode_bits2byte (e : Octet Byte) : decode (encode (.bits2byte e)) = some (.bits2byte e) := by
  rw [encode, decode_opcode_two, intOctetOfBus_intOctetToBus]

theorem decode_encode_fmtnum (d : Decimal) : decode (encode (.fmtnum d)) = some (.fmtnum d) := by
  rw [encode, decode_opcode_four, reservedAbove32_append, if_neg (by decide), BitVec.extractLsb'_append_eq_right]

theorem decode_encode_display (d : Decimal) : decode (encode (.display d)) = some (.display d) := by
  rw [encode, decode_opcode_five, reservedAbove32_append, if_neg (by decide), BitVec.extractLsb'_append_eq_right]

@[simp] theorem decode_encode (i : Instr) : decode (encode i) = some i := by
  cases i with
  | bools2bits b => exact decode_encode_bools2bits b
  | bits2bools e => exact decode_encode_bits2bools e
  | bits2byte e => exact decode_encode_bits2byte e
  | byte2bits n => exact decode_encode_byte2bits n
  | fmtnum d => exact decode_encode_fmtnum d
  | display d => exact decode_encode_display d

-- ## Encoding what a word decodes to

/-- Two operand fields that agree in every lane are the same field. -/
theorem bus_ext_of_lanes {v w : Bus}
    (h : ∀ i : Fin 8, v.extractLsb' (56 - 8 * i.val) 8 = w.extractLsb' (56 - 8 * i.val) 8) : v = w := by
  refine BitVec.eq_of_getLsbD_eq fun j hj => ?_
  have hbit := congrArg (·.getLsbD (j % 8)) (h ⟨7 - j / 8, by omega⟩)
  simpa [Nat.mod_lt, show 56 - 8 * (7 - j / 8) + j % 8 = j by omega] using hbit

/-- The octet read from a bus, put back on it. -/
@[simp] theorem intOctetToBus_intOctetOfBus (w : Bus) : intOctetToBus (intOctetOfBus w) = w :=
  bus_ext_of_lanes fun i => by rw [intOctetToBus_lane, intOctetOfBus_get]

@[simp] theorem boolOctetToBus_boolOctetOfBus (x : Byte) : boolOctetToBus (boolOctetOfBus x) = x :=
  byte_ext_of_lanes fun i => by rw [boolOctetToBus_lane, boolOctetOfBus_get]

/-- With its reserved bits 0 an operand field is its low byte under zeros (rule R63). -/
theorem zeros_append_low8 {arg : Bus} (h : reservedAbove8 arg = 0) : (0#56 ++ arg.extractLsb' 0 8 : Bus) = arg := by
  rw [← show reservedAbove8 arg = 0#56 from h]
  exact BitVec.extractLsb'_append_extractLsb'_eq_extractLsb' (x := arg) (by rfl) |>.trans (by simp)

/-- With its reserved bits 0 an operand field is its low 32 bits under zeros (rule R63). -/
theorem zeros_append_low32 {arg : Bus} (h : reservedAbove32 arg = 0) :
    (0#32 ++ arg.extractLsb' 0 32 : Bus) = arg := by
  rw [← show reservedAbove32 arg = 0#32 from h]
  exact BitVec.extractLsb'_append_extractLsb'_eq_extractLsb' (x := arg) (by rfl) |>.trans (by simp)

theorem encode_of_decode_append {op : BitVec 3} {arg : Bus} {i : Instr} (h : decode (op ++ arg) = some i) :
    encode i = op ++ arg := by
  obtain rfl | rfl | rfl | rfl | rfl | rfl | hop := opcode_cases op
  · obtain ⟨hres, rfl⟩ := by simpa using (decode_opcode_zero arg).symm.trans h
    rw [encode, boolOctetToBus_boolOctetOfBus, zeros_append_low8 hres]
    rfl
  · obtain rfl := by simpa using (decode_opcode_one arg).symm.trans h
    rw [encode, intOctetToBus_intOctetOfBus]
    rfl
  · obtain rfl := by simpa using (decode_opcode_two arg).symm.trans h
    rw [encode, intOctetToBus_intOctetOfBus]
    rfl
  · obtain ⟨hres, rfl⟩ := by simpa using (decode_opcode_three arg).symm.trans h
    rw [encode, zeros_append_low8 hres]
    rfl
  · obtain ⟨hres, rfl⟩ := by simpa using (decode_opcode_four arg).symm.trans h
    rw [encode, zeros_append_low32 hres]
    rfl
  · obtain ⟨hres, rfl⟩ := by simpa using (decode_opcode_five arg).symm.trans h
    rw [encode, zeros_append_low32 hres]
    rfl
  · rw [decode_reserved_opcode arg hop] at h
    cases h

theorem encode_of_decode {w : CmdWord} {i : Instr} (h : decode w = some i) : encode i = w := by
  rw [← opcodeOf_append_argOf w] at h ⊢
  exact encode_of_decode_append h

-- ## The rows of the opcode table (rule R56)

/-- A field that the row's mask holds whole has the row's bits in every word that selects the row. -/
theorem field_eq_of_selects {r : TableRow} {w : CmdWord} {start len : Nat} (h : r.selects w = true)
    (hmask : r.mask.extractLsb' start len = BitVec.allOnes len) :
    w.extractLsb' start len = r.pattern.extractLsb' start len := by
  rw [← beq_iff_eq.mp h, BitVec.extractLsb'_and, hmask, BitVec.and_allOnes]

theorem opcodeOf_eq_of_selects {r : TableRow} {w : CmdWord} (hr : r ∈ opcodeTable) (h : r.selects w = true) :
    opcodeOf w = opcodeOf r.pattern := by
  have hmask : ∀ r ∈ opcodeTable, r.mask.extractLsb' 64 3 = BitVec.allOnes 3 := by decide
  exact field_eq_of_selects h (hmask r hr)

/-- No two rows have the same opcode, so a word selects at most one. -/
theorem row_eq_of_selects {q r : TableRow} {w : CmdWord} (hq : q ∈ opcodeTable) (hr : r ∈ opcodeTable)
    (hqw : q.selects w = true) (hrw : r.selects w = true) : q = r := by
  have hinj : ∀ q ∈ opcodeTable, ∀ r ∈ opcodeTable, opcodeOf q.pattern = opcodeOf r.pattern → q = r := by decide
  exact hinj q hq r hr ((opcodeOf_eq_of_selects hq hqw).symm.trans (opcodeOf_eq_of_selects hr hrw))

/-- No row has a reserved opcode, and the mask of a row holds every reserved bit of its opcode. -/
theorem decode_ne_none_of_selects {r : TableRow} {w : CmdWord} (hr : r ∈ opcodeTable) (h : r.selects w = true) :
    decode w ≠ none := by
  have hop : ∀ r ∈ opcodeTable, ¬ 6 ≤ (opcodeOf r.pattern).toNat := by decide
  have h8 : ∀ r ∈ opcodeTable, opcodeOf r.pattern = 0 ∨ opcodeOf r.pattern = 3 →
      r.mask.extractLsb' 8 56 = BitVec.allOnes 56 ∧ r.pattern.extractLsb' 8 56 = 0 := by decide
  have h32 : ∀ r ∈ opcodeTable, opcodeOf r.pattern = 4 ∨ opcodeOf r.pattern = 5 →
      r.mask.extractLsb' 32 32 = BitVec.allOnes 32 ∧ r.pattern.extractLsb' 32 32 = 0 := by decide
  rw [ne_eq, decode_eq_none_iff, opcodeOf_eq_of_selects hr h]
  rintro (hres | ⟨hcase, hset⟩ | ⟨hcase, hset⟩)
  · exact hop r hr hres
  · obtain ⟨hmask, hpattern⟩ := h8 r hr hcase
    exact hset ((field_eq_of_selects h hmask).trans hpattern)
  · obtain ⟨hmask, hpattern⟩ := h32 r hr hcase
    exact hset ((field_eq_of_selects h hmask).trans hpattern)

/-- The word of an operation selects a row with its mnemonic. -/
theorem tableRow_statement (i : Instr) : TableRow.Statement i := by
  cases i with
  | bools2bits b => exact TableRow.bools2bits b
  | bits2bools e => exact TableRow.bits2bools e
  | bits2byte e => exact TableRow.bits2byte e
  | byte2bits n => exact TableRow.byte2bits n
  | fmtnum d => exact TableRow.fmtnum d
  | display d => exact TableRow.display d

-- ## The assembler on parsed lines (rule R66)

/-- A list of eight elements is the elements of an octet. -/
theorem exists_toList_of_length {α : Type} {l : List α} (h : l.length = 8) : ∃ o : Octet α, l = o.toList :=
  match l, h with
  | [a, b, c, d, e, f, g, h], _ => ⟨⟨a, b, c, d, e, f, g, h⟩, rfl⟩

@[simp] theorem toList_length {α : Type} (o : Octet α) : o.toList.length = 8 := rfl

@[simp] theorem intOctetOfList_toList (o : Octet Nat) :
    intOctetOfList o.toList = some (o.map (BitVec.ofNat 8)) := rfl

theorem toList_map {α β : Type} (f : α → β) (o : Octet α) : o.toList.map f = (o.map f).toList := rfl

theorem intOctetLiteralOk_iff (e : List Nat) :
    intOctetLiteralOk e = true ↔ e.length = 8 ∧ ∀ x ∈ e, x ≤ 255 := by
  simp [intOctetLiteralOk, Nat.lt_succ_iff]

theorem intOctetLiteralOk_map_toNat (e : Octet Byte) : intOctetLiteralOk (e.toList.map BitVec.toNat) = true := by
  rw [intOctetLiteralOk_iff, List.length_map, List.forall_mem_map]
  exact ⟨toList_length e, fun x _ => Nat.lt_succ_iff.mp x.isLt⟩

/-- The elements of an octet written as numbers and read back. -/
theorem intOctetOfList_map_toNat (e : Octet Byte) : intOctetOfList (e.toList.map BitVec.toNat) = some e := by
  rw [toList_map, intOctetOfList_toList]
  exact congrArg some (octet_ext fun i => by rw [get_map, get_map, BitVec.ofNat_toNat, BitVec.setWidth_eq])

theorem assemble_of_not_wellFormed {a : Asm} (h : a.wellFormed = false) : a.assemble = none := by
  simp [Asm.assemble, h]

/-- A line whose literal is in range assembles: to the raw word after `.cmd`, and to an operation's word otherwise. -/
theorem assemble_of_wellFormed {a : Asm} (h : a.wellFormed = true) :
    (∃ n, a = .raw n ∧ a.assemble = some (BitVec.ofNat 67 n)) ∨ ∃ i, a.assemble = some (encode i) := by
  rw [Asm.assemble.eq_def, if_pos h]
  cases a with
  | bools2bits b =>
    obtain ⟨o, rfl⟩ := exists_toList_of_length (by simpa [Asm.wellFormed] using h)
    exact .inr ⟨_, rfl⟩
  | bits2bools e | bits2byte e =>
    obtain ⟨o, rfl⟩ := exists_toList_of_length ((intOctetLiteralOk_iff e).mp h).1
    exact .inr ⟨_, rfl⟩
  | byte2bits | fmtnum | display => exact .inr ⟨_, rfl⟩
  | raw n => exact .inl ⟨n, rfl, rfl⟩

theorem assemble_isSome_iff (a : Asm) : a.assemble.isSome = true ↔ a.wellFormed = true := by
  cases h : a.wellFormed with
  | false => simp [assemble_of_not_wellFormed h]
  | true => obtain ⟨n, -, hw⟩ | ⟨i, hw⟩ := assemble_of_wellFormed h <;> simp [hw]

/-- Only `.cmd` writes an illegal word. -/
theorem decode_isSome_of_assemble {a : Asm} {w : CmdWord} (h : a.assemble = some w) :
    (decode w).isSome = true ∨ ∃ n, a = .raw n := by
  have hwf : a.wellFormed = true := (assemble_isSome_iff a).mp (by rw [h]; rfl)
  obtain ⟨n, ha, -⟩ | ⟨i, hi⟩ := assemble_of_wellFormed hwf
  · exact .inr ⟨n, ha⟩
  · obtain rfl : w = encode i := Option.some.inj (h.symm.trans hi)
    exact .inl (by rw [decode_encode]; rfl)

theorem wellFormed_toAsm (i : Instr) : i.toAsm.wellFormed = true := by
  cases i with
  | bools2bits b => rfl
  | bits2bools e | bits2byte e => exact intOctetLiteralOk_map_toNat e
  | byte2bits n => exact decide_eq_true n.isLt
  | fmtnum d | display d => exact decide_eq_true d.isLt

theorem assemble_toAsm (i : Instr) : i.toAsm.assemble = some (encode i) := by
  rw [Asm.assemble.eq_def, if_pos (wellFormed_toAsm i)]
  cases i with
  | bools2bits b => rfl
  | bits2bools e | bits2byte e => simp [Instr.toAsm, intOctetOfList_map_toNat]
  | byte2bits n | fmtnum n | display n => simp [Instr.toAsm]

-- ## The obligations

/-- Settles O5: one lemma per operation, each the decoder's equation of its opcode on the operand's own layout. -/
theorem decodeOfEncodeIsTheOperation : Obligations.DecodeOfEncodeIsTheOperation := decode_encode

/-- Settles O6: a word is its opcode over its operand field, and the operand field is the operand over zeros. -/
theorem encodeOfDecodeIsTheWord : Obligations.EncodeOfDecodeIsTheWord := fun _ _ => encode_of_decode

/-- Settles O4: a legal word is the word of its operation and selects that operation's row; no second row has the
opcode, and an illegal word selects none. -/
theorem eachWordSelectsAtMostOneRow : Obligations.EachWordSelectsAtMostOneRow := by
  intro w
  cases hw : decode w with
  | none => exact .inl ⟨rfl, fun r hr => Bool.eq_false_iff.mpr fun h => decode_ne_none_of_selects hr h hw⟩
  | some i =>
    obtain ⟨r, hr, hmnemonic, hsel⟩ := tableRow_statement i
    rw [encode_of_decode hw] at hsel
    exact .inr ⟨i, r, rfl, hr, hmnemonic, fun q hq => ⟨fun h => row_eq_of_selects hq hr h hsel, fun h => h ▸ hsel⟩⟩

/-- Settles O7: each word is read by evaluating the decoder. -/
theorem sampleWordsDecode : Obligations.SampleWordsDecode := by
  unfold Obligations.SampleWordsDecode
  decide

/-- Settles O8: a line assembles exactly when it is well formed, which is the range of its form; and what it assembles
to is an operation's word or the raw word. -/
theorem assemblerAcceptsExactlyTheRanges : Obligations.AssemblerAcceptsExactlyTheRanges := by
  refine ⟨fun b => ?_, fun e => ?_, fun e => ?_, fun n => ?_, fun d => ?_, fun d => ?_, fun n => ⟨?_, fun hn => ?_⟩,
    assemble_toAsm, fun a w => decode_isSome_of_assemble⟩
  · simp [assemble_isSome_iff, Asm.wellFormed]
  · rw [assemble_isSome_iff, Asm.wellFormed, intOctetLiteralOk_iff]
  · rw [assemble_isSome_iff, Asm.wellFormed, intOctetLiteralOk_iff]
  · simp [assemble_isSome_iff, Asm.wellFormed, Nat.lt_succ_iff]
  · simp [assemble_isSome_iff, Asm.wellFormed, Nat.lt_succ_iff]
  · simp [assemble_isSome_iff, Asm.wellFormed, Nat.lt_succ_iff]
  · simp [assemble_isSome_iff, Asm.wellFormed]
  · exact if_pos (decide_eq_true hn)

end Sys2Proof.Proofs
end

section
/-! PROOFS. The formatter's two strings (42_binary_formatter.md rules R112 to R119, R122 to R126 and R128): the digits of a
number at a width, their grouping and what is left of it without separators, the decimal numeral, and the lengths. -/

namespace Sys2Proof.Proofs

open Sys2Proof Sys2Proof.Machine Sys2Proof.Laws

-- ## The digits of a number at a width (rules R111 to R113)

/-- The number has at most `m` bits exactly when it is below `2^m`. -/
theorem lengthBelow_le_iff (d : Decimal) (m : Nat) : lengthBelow d 32 ≤ m ↔ d.toNat < 2 ^ m := by
  constructor
  · intro h
    exact (toNat_lt_two_pow_lengthBelow d).trans_le (Nat.pow_le_pow_right (by decide) h)
  · intro h
    by_cases hd : d = 0
    · subst hd
      exact Nat.zero_le m
    · have hlt := (Nat.pow_lt_pow_iff_right (by decide)).mp ((two_pow_lengthBelow_sub_one_le_toNat hd).trans_lt h)
      omega

/-- The minimal digits are the digits at the number's own width, and at width 1 for zero. -/
theorem minbin_eq_digitsBelow (d : Decimal) : minbin d = digitsBelow d (max 1 (lengthBelow d 32)) := by
  by_cases hd : d = 0
  · subst hd
    rfl
  · rw [minbin_of_ne_zero hd, max_eq_right (one_le_lengthBelow hd)]

theorem minbin_length (d : Decimal) : (minbin d).length = max 1 (lengthBelow d 32) := by
  rw [minbin_eq_digitsBelow, digitsBelow_length]

theorem minbin_length_le_iff (d : Decimal) {m : Nat} (hm : 1 ≤ m) : (minbin d).length ≤ m ↔ d.toNat < 2 ^ m := by
  rw [minbin_length, max_le_iff, lengthBelow_le_iff, and_iff_right hm]

/-- Digits above the highest set bit are zeros. -/
theorem replicate_append_digitsBelow (d : Decimal) {m n : Nat} (hd : d.toNat < 2 ^ m) (hmn : m ≤ n) :
    List.replicate (n - m) (digitChar 0) ++ digitsBelow d m = digitsBelow d n := by
  induction n, hmn using Nat.le_induction with
  | base => rw [Nat.sub_self, List.replicate_zero, List.nil_append]
  | succ n hmn ih =>
    have hbit : d.getLsbD n = false :=
      Nat.testBit_lt_two_pow (hd.trans_le (Nat.pow_le_pow_right (by decide) hmn))
    rw [Nat.sub_add_comm hmn, List.replicate_succ, List.cons_append, ih, digitsBelow_succ, hbit]
    rfl

/-- The padded width of a number. -/
def paddedWidth (d : Decimal) : Nat := padWidth (minbin d).length

/-- The padded width is 8, 16, 24 or 32 by the size of the number (rule R112). -/
theorem paddedWidth_eq (d : Decimal) :
    paddedWidth d =
      if d.toNat < 256 then 8 else if d.toNat < 65536 then 16 else if d.toNat < 16777216 then 24 else 32 := by
  simp only [paddedWidth, padWidth, minbin_length_le_iff d (show 1 ≤ 8 by decide),
    minbin_length_le_iff d (show 1 ≤ 16 by decide), minbin_length_le_iff d (show 1 ≤ 24 by decide)]
  rfl

theorem minbin_length_le_paddedWidth (d : Decimal) : (minbin d).length ≤ paddedWidth d := by
  have hmax := (minbin_length_bounds d).2
  simp only [paddedWidth, padWidth]
  split_ifs <;> assumption

/-- The padded string is the digits of the number at its padded width (rule R113). -/
theorem pad_eq_digitsBelow (d : Decimal) : pad d = digitsBelow d (paddedWidth d) := by
  have hlt : d.toNat < 2 ^ (minbin d).length :=
    (minbin_length_le_iff d (minbin_length_bounds d).1).mp le_rfl
  have hmin : minbin d = digitsBelow d (minbin d).length := by rw [minbin_length, ← minbin_eq_digitsBelow]
  rw [pad, ← paddedWidth, ← replicate_append_digitsBelow d hlt (minbin_length_le_paddedWidth d), ← hmin]

theorem pad_length (d : Decimal) : (pad d).length = paddedWidth d := by
  rw [pad_eq_digitsBelow, digitsBelow_length]

/-- The padded width is a positive number of groups of four, at most eight. -/
theorem exists_paddedWidth_eq_four_mul (d : Decimal) : ∃ m, paddedWidth d = 4 * (m + 1) ∧ m < 8 := by
  rw [paddedWidth_eq]
  split_ifs
  exacts [⟨1, rfl, by decide⟩, ⟨3, rfl, by decide⟩, ⟨5, rfl, by decide⟩, ⟨7, rfl, by decide⟩]

/-- Under either policy the string is the grouped digits of the number at some width that holds it, of 1 to 32 digits
(rules R117 and R118). -/
theorem exists_fmt_eq_group4 (p : Build) (d : Decimal) :
    ∃ m, fmt p d = group4 (digitsBelow d m) ∧ (minbin d).length ≤ m ∧ m ≤ 32 := by
  cases hp : p.padPolicy with
  | padded =>
    refine ⟨paddedWidth d, by rw [fmt_padded hp, pad_eq_digitsBelow], minbin_length_le_paddedWidth d, ?_⟩
    obtain ⟨m, hw, hm⟩ := exists_paddedWidth_eq_four_mul d
    omega
  | unpadded =>
    refine ⟨(minbin d).length, ?_, le_rfl, (minbin_length_bounds d).2⟩
    rw [fmt_unpadded hp, minbin_length, ← minbin_eq_digitsBelow]

-- ## The shape of a grouped string (rules R115 and R116)

theorem filter_groupRest {t : Str} (h : Config.sep ∉ t) : (groupRest t).filter (· ≠ Config.sep) = t := by
  induction t with
  | nil => rfl
  | cons c t ih =>
    obtain ⟨hc, ht⟩ := List.ne_and_not_mem_of_not_mem_cons h
    rw [groupRest_cons]
    split <;> simpa [Ne.symm hc] using ih ht

/-- Without its separators a grouped string is its digits. -/
theorem filter_group4 {t : Str} (h : Config.sep ∉ t) : (group4 t).filter (· ≠ Config.sep) = t := by
  cases t with
  | nil => rfl
  | cons c t =>
    obtain ⟨hc, ht⟩ := List.ne_and_not_mem_of_not_mem_cons h
    rw [group4_cons, List.filter_cons_of_pos (by simpa using Ne.symm hc), filter_groupRest ht]

/-- Grouping puts nothing behind the last digit. -/
theorem getLast?_cons_groupRest (c : Byte) (t : Str) : (c :: groupRest t).getLast? = (c :: t).getLast? := by
  induction t generalizing c with
  | nil => rfl
  | cons x t ih =>
    rw [groupRest_cons]
    split <;> simp only [List.getLast?_cons_cons, ih]

/-- What rule R116 asks of two characters side by side. -/
def NotBothSeps (a b : Byte) : Prop := ¬(a = Config.sep ∧ b = Config.sep)

theorem isChain_cons_groupRest {c : Byte} {t : Str} (hc : c ≠ Config.sep) (ht : Config.sep ∉ t) :
    (c :: groupRest t).IsChain NotBothSeps := by
  induction t generalizing c with
  | nil => exact .singleton c
  | cons x t ih =>
    obtain ⟨hx, ht⟩ := List.ne_and_not_mem_of_not_mem_cons ht
    have hrest := ih (Ne.symm hx) ht
    rw [groupRest_cons]
    split
    · exact .cons_cons (fun h => hc h.1) (.cons_cons (fun h => hx h.2.symm) hrest)
    · exact .cons_cons (fun h => hc h.1) hrest

theorem isChain_group4 {t : Str} (h : Config.sep ∉ t) : (group4 t).IsChain NotBothSeps := by
  cases t with
  | nil => exact .nil
  | cons c t =>
    obtain ⟨hc, ht⟩ := List.ne_and_not_mem_of_not_mem_cons h
    exact isChain_cons_groupRest (Ne.symm hc) ht

-- ## The string of this hardware, position by position (rule R119)

/-- At a multiple of four digits a separator stands before the first. -/
theorem groupRest_eq_sep_cons_group4 {t : Str} (h0 : t ≠ []) (h4 : t.length % 4 = 0) :
    groupRest t = Config.sep :: group4 t := by
  cases t with
  | nil => exact absurd rfl h0
  | cons c t => exact (groupRest_cons c t).trans (if_pos h4)

/-- Four digits in front of whole groups make one more group. -/
theorem groupRest_digitsBelow_succ (d : Decimal) (m : Nat) :
    groupRest (digitsBelow d (4 * (m + 1))) =
      Config.sep :: bitChar (d.getLsbD (4 * m + 3)) :: bitChar (d.getLsbD (4 * m + 2)) ::
        bitChar (d.getLsbD (4 * m + 1)) :: bitChar (d.getLsbD (4 * m)) :: groupRest (digitsBelow d (4 * m)) := by
  simp only [Nat.mul_add, Nat.mul_one, digitsBelow_succ, groupRest_cons, List.length_cons, digitsBelow_length]
  rw [if_pos (by omega), if_neg (by omega), if_neg (by omega), if_neg (by omega)]

/-- In whole groups every fifth character is a separator, and the others are the digits in order. -/
theorem groupRest_digitsBelow_getElem? (d : Decimal) {m c : Nat} (hc : c < 5 * m) :
    (groupRest (digitsBelow d (4 * m)))[c]? =
      some (if c % 5 = 0 then Config.sep else bitChar (d.getLsbD (4 * m - (c - c / 5)))) := by
  induction m generalizing c with
  | zero => omega
  | succ m ih =>
    rw [groupRest_digitsBelow_succ]
    rcases Nat.lt_or_ge c 5 with h | h
    · interval_cases c <;> rfl
    · obtain ⟨c, rfl⟩ := Nat.exists_eq_add_of_le' h
      have hbit : 4 * (m + 1) - (c + 5 - (c + 5) / 5) = 4 * m - (c - c / 5) := by omega
      simp only [List.getElem?_cons_succ, ih (show c < 5 * m by omega), Nat.add_mod_right, hbit]

-- ## Reading the digits back (rule R128)

theorem sep_not_isDigitChar : ¬ IsDigitChar Config.sep := by
  have hdigit : ∀ v < 10, Config.sep ≠ digitChar v := by decide
  exact fun ⟨v, hv, h⟩ => hdigit v hv h

theorem sep_not_mem_digitsBelow (d : Decimal) (m : Nat) : Config.sep ∉ digitsBelow d m :=
  fun h => sep_not_isDigitChar (isDigitChar_of_mem_digitsBelow h)

/-- The value of a digit's code over that of the digit 0 (log entry 6). -/
theorem digitChar_toNat_sub {v : Nat} (h : v < 10) : (digitChar v).toNat - 0x30 = v := by
  revert v
  decide

theorem bitChar_toNat_sub (b : Bool) : (bitChar b).toNat - 0x30 = b.toNat := by
  cases b <;> rfl

/-- The digits of the `m` low bits, read in base 2 behind a number `a`. -/
theorem foldl_digitsBelow (d : Decimal) (m a : Nat) :
    (digitsBelow d m).foldl (fun a c => a * 2 + (c.toNat - 0x30)) a = a * 2 ^ m + d.toNat % 2 ^ m := by
  induction m generalizing a with
  | zero => simp [Nat.mod_one]
  | succ m ih =>
    rw [digitsBelow_succ, List.foldl_cons, ih, bitChar_toNat_sub, Nat.mod_pow_succ, ← Nat.toNat_testBit, BitVec.testBit_toNat]
    ring

/-- The string of a number without its separators reads as the number in base 2. -/
theorem foldl_filter_fmt (p : Build) (d : Decimal) :
    ((fmt p d).filter (· ≠ Config.sep)).foldl (fun a c => a * 2 + (c.toNat - 0x30)) 0 = d.toNat := by
  obtain ⟨m, hfmt, hlen, -⟩ := exists_fmt_eq_group4 p d
  have hlt := (minbin_length_le_iff d ((minbin_length_bounds d).1.trans hlen)).mp hlen
  rw [hfmt, filter_group4 (sep_not_mem_digitsBelow d m), foldl_digitsBelow, Nat.mod_eq_of_lt hlt,
    Nat.zero_mul, Nat.zero_add]

-- ## The decimal numeral (rule R123)

theorem decDigits_succ_of_lt {n : Nat} (f : Nat) (h : n < 10) : decDigits (f + 1) n = [digitChar n] := if_pos h

theorem decDigits_succ_of_ge {n : Nat} (f : Nat) (h : 10 ≤ n) :
    decDigits (f + 1) n = decDigits f (n / 10) ++ [digitChar (n % 10)] := if_neg (by omega)

/-- Room for one more digit than the number can have changes nothing. -/
theorem decDigits_succ_fuel {f n : Nat} (h : n < 10 ^ (f + 1)) : decDigits (f + 2) n = decDigits (f + 1) n := by
  induction f generalizing n with
  | zero => rw [decDigits_succ_of_lt _ (by simpa using h), decDigits_succ_of_lt _ (by simpa using h)]
  | succ f ih =>
    rcases Nat.lt_or_ge n 10 with hn | hn
    · rw [decDigits_succ_of_lt _ hn, decDigits_succ_of_lt _ hn]
    · rw [decDigits_succ_of_ge _ hn, decDigits_succ_of_ge (f + 1) hn, ih (by omega)]

theorem decDigits_length_le (f n : Nat) : (decDigits f n).length ≤ f := by
  induction f generalizing n with
  | zero => exact le_rfl
  | succ f ih =>
    rw [decDigits]
    split
    · simp
    · simpa using ih (n / 10)

theorem decDigits_succ_ne_nil (f n : Nat) : decDigits (f + 1) n ≠ [] := by
  rw [decDigits]
  split <;> simp

/-- A number other than 0 has no leading zero. -/
theorem decDigits_head? {f n : Nat} (h0 : n ≠ 0) (h : n < 10 ^ f) : (decDigits f n).head? ≠ some (digitChar 0) := by
  induction f generalizing n with
  | zero => omega
  | succ f ih =>
    rcases Nat.lt_or_ge n 10 with hn | hn
    · rw [decDigits_succ_of_lt f hn, List.head?_cons, ne_eq, Option.some.injEq]
      intro heq
      have hval := digitChar_toNat_sub hn
      rw [heq, digitChar_toNat_sub (by decide)] at hval
      exact h0 hval.symm
    · obtain ⟨f, rfl⟩ : ∃ g, f = g + 1 := Nat.exists_eq_add_one_of_ne_zero (by rintro rfl; omega)
      rw [decDigits_succ_of_ge _ hn, List.head?_append_of_ne_nil _ (decDigits_succ_ne_nil f _)]
      exact ih (by omega) (by omega)

/-- The digits read back in base 10 are the number. -/
theorem foldl_decDigits {f n : Nat} (h : n < 10 ^ f) :
    (decDigits f n).foldl (fun a c => a * 10 + (c.toNat - 0x30)) 0 = n := by
  induction f generalizing n with
  | zero =>
    rw [pow_zero, Nat.lt_one_iff] at h
    exact h.symm
  | succ f ih =>
    rcases Nat.lt_or_ge n 10 with hn | hn
    · rw [decDigits_succ_of_lt f hn, List.foldl_cons, List.foldl_nil, digitChar_toNat_sub hn, Nat.zero_mul,
        Nat.zero_add]
    · rw [decDigits_succ_of_ge f hn, List.foldl_append, ih (by omega), List.foldl_cons, List.foldl_nil,
        digitChar_toNat_sub (Nat.mod_lt n (by decide)), Nat.div_add_mod']

theorem toNat_lt_ten_pow (d : Decimal) : d.toNat < 10 ^ 10 := d.isLt.trans (by decide)

/-- The recursion of the rule. -/
theorem dec_eq (d : Decimal) :
    dec d = if d.toNat < 10 then [digitChar d.toNat]
      else dec (BitVec.ofNat 32 (d.toNat / 10)) ++ [digitChar (d.toNat % 10)] := by
  have hd := d.isLt
  split
  · exact decDigits_succ_of_lt 9 ‹_›
  · have hdiv : (BitVec.ofNat 32 (d.toNat / 10)).toNat = d.toNat / 10 := Nat.mod_eq_of_lt (by omega)
    rw [dec, dec, hdiv, decDigits_succ_of_ge 9 (by omega), decDigits_succ_fuel (f := 8) (by omega)]

theorem dec_length_bounds (d : Decimal) : 1 ≤ (dec d).length ∧ (dec d).length ≤ 10 :=
  ⟨List.length_pos_iff.mpr (decDigits_succ_ne_nil 9 d.toNat), decDigits_length_le 10 d.toNat⟩

-- ## The lengths of the strings (rule R126)

/-- A string of 1 to 32 digits has at most 39 characters. -/
theorem fmt_length_le (p : Build) (d : Decimal) : (fmt p d).length ≤ 39 := by
  obtain ⟨m, hfmt, -, hm⟩ := exists_fmt_eq_group4 p d
  rw [hfmt, group4_length, digitsBelow_length]
  omega

/-- A number with the highest bit set has 32 digits under either policy. -/
theorem fmt_length_of_ge {d : Decimal} (hd : 2 ^ 31 ≤ d.toNat) (p : Build) : (fmt p d).length = 39 := by
  obtain ⟨m, hfmt, hlen, hm⟩ := exists_fmt_eq_group4 p d
  have hmin : ¬ (minbin d).length ≤ 31 := by
    rw [minbin_length_le_iff d (by decide)]
    omega
  obtain rfl : m = 32 := by omega
  rw [hfmt, group4_length, digitsBelow_length]

theorem displayForm_length (p : Build) (d : Decimal) :
    (displayForm p (makeFormattedNumber p d)).length =
      p.labelDec.length + (dec d).length + p.labelBin.length + (fmt p d).length := by
  simp only [displayForm_makeFormattedNumber, List.length_append]

theorem displayForm_length_le (p : Build) (d : Decimal) :
    (displayForm p (makeFormattedNumber p d)).length ≤ strMax p := by
  have hdec := (dec_length_bounds d).2
  have hfmt := fmt_length_le p d
  rw [displayForm_length, strMax]
  omega

-- ## The obligations

/-- Settles O25: the padded string is the digits at the padded width, whose size the length of the minimal digits
gives. -/
theorem paddedDigitsAreTheNumberAtItsWidth : Obligations.PaddedDigitsAreTheNumberAtItsWidth := by
  refine fun d => ⟨paddedWidth d, paddedWidth_eq d, pad_length d, fun j hj => ?_⟩
  rw [pad_eq_digitsBelow, digitsBelow_getElem? d hj]

/-- Settles O27: the string begins and ends with its own digits, and between two separators there is a digit. -/
theorem groupedStringShape : Obligations.GroupedStringShape := by
  intro t h0 hsep
  obtain ⟨c, t, rfl⟩ := List.exists_cons_of_ne_nil h0
  have hlast : (group4 (c :: t)).getLast? = (c :: t).getLast? := getLast?_cons_groupRest c t
  refine ⟨group4_length _, fun h => hsep ?_, fun h => hsep ?_, fun j hj => ?_, filter_group4 hsep⟩
  · exact Option.some.inj h ▸ .head t
  · exact List.mem_of_getLast? (hlast ▸ h)
  · obtain ⟨hj, hj'⟩ := hj
    obtain ⟨_, hsep₁⟩ := List.getElem?_eq_some_iff.mp hj
    obtain ⟨hlt, hsep₂⟩ := List.getElem?_eq_some_iff.mp hj'
    exact List.isChain_iff_getElem.mp (isChain_group4 hsep) j hlt ⟨hsep₁, hsep₂⟩

/-- Settles O28: the padded digits are whole groups, and with one more separator in front each group is five
characters. -/
theorem paddedStringClosedForm : Obligations.PaddedStringClosedForm := by
  intro d
  refine ⟨paddedWidth d, paddedWidth_eq d, ?_⟩
  obtain ⟨m, hw, -⟩ := exists_paddedWidth_eq_four_mul d
  rw [fmt_padded rfl, pad_eq_digitsBelow, group4_length, digitsBelow_length, hw]
  refine ⟨by omega, fun c hc => ?_⟩
  have hgroup := groupRest_eq_sep_cons_group4 (t := digitsBelow d (4 * (m + 1))) nofun (by simp)
  rw [← List.getElem?_cons_succ (a := Config.sep), ← hgroup, groupRest_digitsBelow_getElem? d (by omega)]
  have hsep : (c + 1) % 5 = 0 ↔ c % 5 = 4 := by omega
  simp only [hsep]
  split
  · rfl
  · rw [show 4 * (m + 1) - (c + 1 - (c + 1) / 5) = 4 * (m + 1) - 1 - (c - c / 5) by omega]

/-- Settles O30: each clause by recursion on the digits, of which a 32-bit number has at most ten. -/
theorem decimalNumeralIsMinimal : Obligations.DecimalNumeralIsMinimal := by
  intro d
  obtain ⟨hpos, hmax⟩ := dec_length_bounds d
  refine ⟨dec_eq d, hpos, hmax, fun hd => ?_, foldl_decDigits (toNat_lt_ten_pow d)⟩
  exact decDigits_head? (fun h => hd (BitVec.eq_of_toNat_eq h)) (toNat_lt_ten_pow d)

/-- Settles O31: the numeral has at most 10 digits and the binary string at most 39 characters; 4294967295 has both. -/
theorem displayLengthIsBounded : Obligations.DisplayLengthIsBounded := by
  refine fun p => ⟨fun d => ⟨displayForm_length p d, displayForm_length_le p d⟩, ?_⟩
  have hdec : (dec 4294967295).length = 10 := by decide
  rw [displayForm_length, hdec, fmt_length_of_ge (by decide) p, strMax]

/-- Settles O32: the string read back is the number, so equal strings are read back as equal numbers. -/
theorem stringDeterminesTheNumber : Obligations.StringDeterminesTheNumber := by
  refine fun p d => ⟨foldl_filter_fmt p d, fun d' h => BitVec.eq_of_toNat_eq ?_⟩
  rw [← foldl_filter_fmt p d, ← foldl_filter_fmt p d', h]

end Sys2Proof.Proofs
end

section
/-! PROOFS. One step of the machine (60_exceptions.md sections 2 and 6; 70_reset_and_hazards.md rules R161 and R165): every
operation completes, every command is answered, the answer is one the block may give, and `ACC` is never seen. -/

namespace Sys2Proof.Proofs

open Sys2Proof Sys2Proof.Machine Sys2Proof.Laws

-- ## The operations in this hardware

/-- The build of this hardware rejects no operand, so every operation ends `OK`. -/
theorem perform_build_ok (i : Instr) (k : Block) :
    (perform Config.build i k).2.status = .ok ∧ (perform Config.build i k).2.kind = .none :=
  perform_ok_of_not_rejects k (rejects_of_lenient rfl i)

-- ## The responses a build may give

theorem legal_of_ok {p : Build} {r : Response} (hstatus : r.status = .ok) (hkind : r.kind = .none)
    (hlen : r.strLen ≤ strMax p) : r.legal p = true := by
  simp [Response.legal, hstatus, hkind, hlen]

theorem legal_errorResponse_illegal (p : Build) : (errorResponse .illegal).legal p = true := rfl

theorem legal_elementError {p : Build} (hp : p.strict = true) :
    Response.legal p ⟨.errInvalidInput, .elementDomain, 0, []⟩ = true := by
  simp [Response.legal, hp]

/-- The display form is the longest string of a build: the binary string alone has at most 39 characters, and the
operations outside the formatter answer none (30_encoding.md rule R59). -/
theorem perform_strLen_le (p : Build) (i : Instr) (k : Block) : (perform p i k).2.strLen ≤ strMax p := by
  cases i with
  | bools2bits | byte2bits => exact Nat.zero_le _
  | bits2bools e => simp only [perform, blockBits2bools]; split <;> exact Nat.zero_le _
  | bits2byte e => simp only [perform, blockBits2byte]; split <;> exact Nat.zero_le _
  | fmtnum d => exact (fmt_length_le p d).trans (Nat.le_add_left 39 _)
  | display d => exact displayForm_length_le p d

theorem perform_legal (p : Build) (i : Instr) (k : Block) : (perform p i k).2.legal p = true := by
  cases h : rejects p i with
  | true =>
    rw [perform_of_rejects k h]
    exact legal_elementError ((rejects_iff p i).mp h).1
  | false =>
    obtain ⟨hstatus, hkind⟩ := perform_ok_of_not_rejects k h
    exact legal_of_ok hstatus hkind (perform_strLen_le p i k)

/-- In every build the response to a command has a shape the build may give. -/
theorem commandStep_legal (p : Build) (k : Block) (w : CmdWord) : (commandStep p k w).2.legal p = true := by
  cases hw : decode w with
  | none =>
    rw [commandStep_of_illegal k hw]
    exact legal_errorResponse_illegal p
  | some i =>
    rw [commandStep_of_legal k hw]
    exact perform_legal p i k

theorem outstandingLegal_of_none {p : Build} {s : State} (h : s.outstanding = none) : OutstandingLegal p s := by
  simp [OutstandingLegal, h]

theorem outstandingLegal_deliver {p : Build} {x : Block × Response} (s : State) (h : x.2.legal p = true) :
    OutstandingLegal p (deliver x s) := by
  simpa [OutstandingLegal] using h

-- ## The command in progress

/-- The status tells whether the word is legal: this hardware has no other error (60_exceptions.md rule R141). -/
theorem commandStep_build_status (k : Block) (w : CmdWord) :
    (commandStep Config.build k w).2.status = if (decode w).isSome then .ok else .errIllegal := by
  cases hw : decode w with
  | none =>
    rw [commandStep_of_illegal k hw]
    rfl
  | some i =>
    rw [commandStep_of_legal k hw]
    exact (perform_build_ok i k).1

theorem stepsOn (s : State) : StepsOn s := by
  rcases hs : s.inProgress with _ | ⟨_ | w⟩
  · exact ⟨_, step_of_idle hs⟩
  · exact ⟨_, step_of_reset hs⟩
  · exact ⟨_, step_of_command hs⟩

theorem step_of_legal {s : State} {w : CmdWord} {i : Instr} (hs : s.inProgress = some (.command w))
    (hw : decode w = some i) : step s = exec i { s with inProgress := none } := by
  rw [step_of_command hs, commandStep_of_legal s.block hw, exec_eq_deliver]

-- ## A word placed by its number

@[simp] theorem cmdWordOfBits_toNat (w : CmdWord) : cmdWordOfBits 67 w.toNat = some w := by
  rw [cmdWordOfBits, Nat.mod_eq_of_lt w.isLt, if_pos w.isLt, BitVec.ofNat_toNat, BitVec.setWidth_eq]

theorem decodeTableWord_toNat (w : CmdWord) : decodeTableWord 67 w.toNat = decode w := by
  simp [decodeTableWord]

theorem withFetchWord_toNat (s : State) (w : CmdWord) :
    s.withFetchWord 67 w.toNat = placeRequest (.command w) s := by
  simp [State.withFetchWord]

-- ## The obligations

/-- Settles O50: the step is idle and keeps the response, or a reset and leaves none, or it delivers the block's answer,
which is legal for every word. -/
theorem stepsKeepResponsesLegal : Obligations.StepsKeepResponsesLegal := by
  intro s t hs ht
  obtain ⟨-, rfl⟩ | ⟨-, rfl⟩ | ⟨w, -, rfl⟩ := step_cases ht
  · exact hs
  · exact outstandingLegal_of_none rfl
  · exact outstandingLegal_deliver _ (commandStep_legal Config.build s.block w)

/-- Settles O51: no response is outstanding right after reset. -/
theorem resetResponsesAreLegal : Obligations.ResetResponsesAreLegal := outstandingLegal_of_none rfl

/-- Settles O16: execution delivers the block's step of the operation, and only BITS2BYTE's changes the block. -/
theorem operationsKeepTheRest : Obligations.OperationsKeepTheRest := by
  intro i s t h
  rw [exec_eq_deliver] at h
  cases h
  exact ⟨deliver_inProgress _ s, ⟨_, deliver_outstanding _ s⟩, fun hi => perform_block s.block hi⟩

/-- Settles O15: what is delivered has status `OK` and kind 0. -/
theorem everyOperationCompletes : Obligations.EveryOperationCompletes := by
  intro i s
  obtain ⟨hstatus, hkind⟩ := perform_build_ok i s.block
  refine ⟨(perform Config.build i s.block).1, (perform Config.build i s.block).2.data,
    (perform Config.build i s.block).2.str, ?_⟩
  rw [exec_eq_deliver, ← hstatus, ← hkind]
  rfl

/-- Settles O38: both sides deliver the block's step of the operation. -/
theorem stepRunsTheDecodedOperation : Obligations.StepRunsTheDecodedOperation := fun _ _ _ => step_of_legal

/-- Settles O39: the placed number is the operation's word, and the step on it is execution. -/
theorem placedWordRunsNext : Obligations.PlacedWordRunsNext := by
  intro i s
  rw [decodeTableWord_toNat, withFetchWord_toNat]
  exact ⟨decode_encode i, step_of_legal (placeRequest_inProgress _ s) (decode_encode i)⟩

/-- Settles O42: the first case of a step. -/
theorem idleBlockWaits : Obligations.IdleBlockWaits := fun _ => step_of_idle

/-- Settles O41: a step on a command delivers one response, whose status tells whether the word is legal. -/
theorem everyCommandIsAnswered : Obligations.EveryCommandIsAnswered :=
  ⟨stepsOn, fun s w hs => ⟨_, _, step_of_command hs, commandStep_build_status s.block w⟩⟩

/-- Settles O46: an idle step and a reset do not look at the block, and neither does the response to a command. -/
theorem accIsNeverObserved : Obligations.AccIsNeverObserved := by
  intro s k
  rcases hs : s.inProgress with _ | ⟨_ | w⟩
  · exact ⟨_, _, step_of_idle hs, step_of_idle rfl, hs.symm, rfl⟩
  · exact ⟨_, _, step_of_reset hs, step_of_reset rfl, rfl, rfl⟩
  · refine ⟨_, _, step_of_command hs, step_of_command rfl, rfl, ?_⟩
    simp only [deliver_outstanding, commandStep_response]

end Sys2Proof.Proofs
end

section
/-! PROOFS. The laws that join two conversions (40_boolean_bit_conversion.md and 41_octet_byte_conversion.md, Laws of the
family): what one operation answers, read by its inverse or set beside its twin. -/

namespace Sys2Proof.Proofs

open Sys2Proof Sys2Proof.Machine Sys2Proof.Laws

-- ## What this hardware answers to a word of each conversion

/-- A byte as an operand: opcode 0 reads its bits as booleans (30_encoding.md rule R57). -/
theorem respond_opcode_zero (x : Byte) :
    respond Config.build (0#3 ++ (0#56 ++ x : Bus)) =
      ⟨.ok, .none, intOctetToBus ((boolOctetOfBus x).map bitOfBool), []⟩ := by
  have hdecode : decode (0#3 ++ (0#56 ++ x : Bus)) = some (.bools2bits (boolOctetOfBus x)) := by
    rw [decode_opcode_zero, reservedAbove8_append, if_neg (by decide), BitVec.extractLsb'_append_eq_right]
  rw [respond_of_legal Block.reset hdecode, perform_bools2bits]

theorem respond_opcode_one (w : Bus) :
    respond Config.build (1#3 ++ w) =
      ⟨.ok, .none, 0#56 ++ boolOctetToBus ((intOctetOfBus w).map (· == 0x01#8)), []⟩ := by
  rw [respond_of_legal Block.reset (decode_opcode_one w), perform_bits2bools rfl]

theorem respond_opcode_two (w : Bus) :
    respond Config.build (2#3 ++ w) = ⟨.ok, .none, 0#56 ++ accAfter (intOctetOfBus w) 8, []⟩ := by
  rw [respond_of_legal Block.reset (decode_opcode_two w), perform_bits2byte rfl]

theorem respond_opcode_three (x : Byte) :
    respond Config.build (3#3 ++ (0#56 ++ x : Bus)) = ⟨.ok, .none, intOctetToBus (unpackByte x), []⟩ := by
  have hdecode : decode (3#3 ++ (0#56 ++ x : Bus)) = some (.byte2bits x) := decode_encode_byte2bits x
  rw [respond_of_legal Block.reset hdecode, perform_byte2bits]

-- ## The elements of the octets

theorem bitOfBool_beq_one (b : Bool) : (bitOfBool b == 0x01#8) = b := by
  cases b <;> rfl

/-- A byte's boolean octet as elements, each compared with 1, is that octet again. -/
theorem boolOctetToBus_map_beq_map_bitOfBool (o : Octet Bool) :
    boolOctetToBus ((o.map bitOfBool).map (· == 0x01#8)) = boolOctetToBus o :=
  congrArg boolOctetToBus (octet_ext fun i => by rw [get_map, get_map, bitOfBool_beq_one])

theorem bitOfBool_getLsbD (b : Bool) (j : Nat) : (bitOfBool b).getLsbD j = (b && decide (j = 0)) := by
  cases b <;> simp [bitOfBool]

/-- The low bit of an element, as an element. -/
theorem bitOfBool_getLsbD_zero (x : Byte) : bitOfBool (x.getLsbD 0) = x &&& 1 := by
  refine BitVec.eq_of_getLsbD_eq fun j _ => ?_
  rw [bitOfBool_getLsbD, lowBit_getLsbD]
  cases j with
  | zero => rfl
  | succ j => simp

/-- Element `i` of an unpacked byte is bit `7-i`, as an element (rule R93). -/
theorem unpackByte_get_eq_bitOfBool (n : Byte) (i : Fin 8) :
    (unpackByte n).get i = bitOfBool (n.getLsbD (7 - i.val)) := by
  rw [unpackByte_get, ← bitOfBool_getLsbD_zero, BitVec.getLsbD_ushiftRight, Nat.add_zero]

/-- The barrel shifter and the boolean lanes put the same octet on the bus. -/
theorem unpackByte_eq_map_bitOfBool (x : Byte) : unpackByte x = (boolOctetOfBus x).map bitOfBool :=
  octet_ext fun i => by rw [unpackByte_get_eq_bitOfBool, get_map, boolOctetOfBus_get]

/-- On an element of a clean octet, being 1 is having the low bit set. -/
theorem beq_one_eq_getLsbD_zero {x : Byte} (h : x.toNat ≤ 1) : (x == 0x01#8) = x.getLsbD 0 := by
  obtain rfl | rfl : x = 0x00#8 ∨ x = 0x01#8 := by bv_omega
  all_goals rfl

/-- On a clean octet the accumulator packs the byte of the octet's booleans. -/
theorem accAfter_eq_boolOctetToBus {e : Octet Byte} (h : ∀ i, (e.get i).toNat ≤ 1) :
    accAfter e 8 = boolOctetToBus (e.map (· == 0x01#8)) :=
  byte_ext_of_lanes fun i => by rw [packed_getLsbD, bits2bools_lane, beq_one_eq_getLsbD_zero (h i)]

-- ## The accumulator as a number (rules R96 and R97)

/-- The first `k` low bits of an octet, read as a `k`-bit number, element 0 on top. -/
def lowBitsNumber (e : Octet Byte) (k : Nat) : Nat :=
  ((List.range k).map fun i => ((e.toList.getD i 0).toNat % 2) * 2 ^ (k - 1 - i)).sum

theorem toList_getD (e : Octet Byte) {k : Nat} (hk : k < 8) : e.toList.getD k 0 = e.get ⟨k, hk⟩ := by
  interval_cases k <;> rfl

/-- One more element shifts the number and puts its low bit behind it. -/
theorem lowBitsNumber_succ (e : Octet Byte) {k : Nat} (hk : k < 8) :
    lowBitsNumber e (k + 1) = lowBitsNumber e k * 2 + (e.get ⟨k, hk⟩).toNat % 2 := by
  have hshift : ∀ i ∈ List.range k,
      ((e.toList.getD i 0).toNat % 2) * 2 ^ (k + 1 - 1 - i) =
        ((e.toList.getD i 0).toNat % 2) * 2 ^ (k - 1 - i) * 2 := by
    intro i hi
    have hik : i < k := List.mem_range.mp hi
    rw [Nat.mul_assoc, ← pow_succ, show k - 1 - i + 1 = k + 1 - 1 - i by omega]
  rw [lowBitsNumber, List.range_succ, List.map_append, List.sum_append, List.map_congr_left hshift,
    List.sum_map_mul_right, ← lowBitsNumber, List.map_singleton, List.sum_singleton, toList_getD e hk]
  simp

/-- A step of the accumulator doubles it and adds the low bit, as long as the shift loses nothing. -/
theorem packStep_toNat {a : Byte} (x : Byte) (h : a.toNat < 2 ^ 7) :
    (packStep a x).toNat = a.toNat * 2 + x.toNat % 2 := by
  have hshift : (a <<< 1).toNat = 2 ^ 1 * a.toNat := by
    rw [BitVec.toNat_shiftLeft, Nat.shiftLeft_eq]
    omega
  have hlow : (x &&& 1#8).toNat = x.toNat % 2 := Nat.and_one_is_mod _
  rw [packStep, BitVec.toNat_or, hshift, hlow, ← Nat.two_pow_add_eq_or_of_lt (Nat.mod_lt _ (by decide))]
  omega

theorem accAfter_toNat (e : Octet Byte) {k : Nat} (hk : k ≤ 8) :
    (accAfter e k).toNat = lowBitsNumber e k ∧ lowBitsNumber e k < 2 ^ k := by
  induction k with
  | zero => exact ⟨rfl, Nat.one_pos⟩
  | succ k ih =>
    obtain ⟨hnum, hlt⟩ := ih (by omega)
    have hlt7 : (accAfter e k).toNat < 2 ^ 7 := by
      rw [hnum]
      exact hlt.trans_le (Nat.pow_le_pow_right (by decide) (by omega))
    rw [accAfter_succ e ⟨k, hk⟩, lowBitsNumber_succ e hk, packStep_toNat _ hlt7, hnum, pow_succ]
    exact ⟨rfl, by omega⟩

-- ## The obligations

/-- Settles O18: each half reads the answer of one operation with the other, lane by lane. -/
theorem booleanDuality : Obligations.BooleanDuality := by
  refine ⟨fun x => ?_, fun w i => ?_⟩
  · rw [respond_opcode_zero, respond_opcode_one, intOctetOfBus_intOctetToBus, boolOctetToBus_map_beq_map_bitOfBool,
      boolOctetToBus_boolOctetOfBus]
  · rw [respond_opcode_one, respond_opcode_zero, boolOctetOfBus_boolOctetToBus, bools2bits_lane, get_map,
      intOctetOfBus_get]
    simp [bitOfBool]

/-- Settles O20: lane `i` of the unpacked byte is its bit `7-i`, which is the low bit of element `i`. -/
theorem packThenUnpackKeepsLowBits : Obligations.PackThenUnpackKeepsLowBits := by
  intro w i
  rw [respond_opcode_two, respond_opcode_three, intOctetToBus_lane, unpackByte_get_eq_bitOfBool, packed_getLsbD,
    bitOfBool_getLsbD_zero, intOctetOfBus_get]

/-- Settles O22: by induction on `k`; below eight elements the shift loses no bit. -/
theorem accumulatorClosedForm : Obligations.AccumulatorClosedForm := by
  refine fun e => ⟨fun k => ?_, packed_getLsbD e⟩
  obtain ⟨hnum, hlt⟩ := accAfter_toNat e (Nat.lt_succ_iff.mp k.isLt)
  exact ⟨hnum, hnum ▸ hlt⟩

/-- Settles O23: the twins answer the same octet, and on a clean octet the same byte. -/
theorem twinOperationsAgreeOnTheBus : Obligations.TwinOperationsAgreeOnTheBus := by
  refine ⟨fun x => ?_, fun e he => ?_⟩
  · rw [respond_opcode_three, respond_opcode_zero, unpackByte_eq_map_bitOfBool]
  · rw [encode, encode, respond_opcode_two, respond_opcode_one, intOctetOfBus_intOctetToBus,
      accAfter_eq_boolOctetToBus he]

end Sys2Proof.Proofs
end

section
/-! PROOFS. Runs (70_reset_and_hazards.md sections 2 and 5; 10_state.md section 4): the machine's run is the block's own run,
request by request, and what a run leaves in `ACC`. -/

namespace Sys2Proof.Proofs

open Sys2Proof Sys2Proof.Machine Sys2Proof.Laws

-- ## One request of a run

/-- The step on an issued request serves it, on whatever state the host issued it. -/
theorem step_placeRequest (r : Request) (s : State) :
    step (placeRequest r s) =
      .next ⟨(serve Config.build s.block r).1, none, responseTo Config.build r⟩ := by
  cases r with
  | reset => rw [step_of_reset (placeRequest_inProgress _ s)]; rfl
  | command w =>
    rw [step_of_command (placeRequest_inProgress _ s), deliver_eq, commandStep_response]
    rfl

/-- With a request issued a step replaces the response outstanding, whatever it was. -/
theorem step_with_outstanding {s : State} (r : Option Response) (h : s.inProgress ≠ none) :
    step { s with outstanding := r } = step s := by
  obtain ⟨_ | w, hq⟩ := Option.ne_none_iff_exists'.mp h
  · exact (step_of_reset (s := { s with outstanding := r }) hq).trans (step_of_reset hq).symm
  · exact (step_of_command (s := { s with outstanding := r }) hq).trans (step_of_command hq).symm

-- ## The machine's run

/-- The block between two requests of a run: no command in progress and no response outstanding. -/
def idleState (k : Block) : State := ⟨k, none, none⟩

theorem runProgram_cons_eq (r : Request) (rs : List Request) (s : State) {u : State} {out : List Response}
    (h : runProgram rs (idleState (serve Config.build s.block r).1) = .next (u, out)) :
    runProgram (r :: rs) s = .next (u, (responseTo Config.build r).toList ++ out) :=
  runProgram_cons (step_placeRequest r s) h

/-- From an idle block the machine's run is the block's run. -/
theorem runProgram_idleState (rs : List Request) (k : Block) :
    runProgram rs (idleState k) =
      .next (idleState (runRequests Config.build k rs).1, (runRequests Config.build k rs).2) := by
  induction rs generalizing k with
  | nil => rfl
  | cons r rs ih =>
    rw [runProgram_cons_eq r rs _ (ih _), runRequests_cons, serve_responses]
    rfl

/-- The first request of a run finds an idle block or makes it one. -/
theorem runProgram_of_ne_nil {rs : List Request} (h : rs ≠ []) (s : State) :
    runProgram rs s =
      .next (idleState (runRequests Config.build s.block rs).1, (runRequests Config.build s.block rs).2) := by
  obtain ⟨r, rs, rfl⟩ := List.exists_cons_of_ne_nil h
  rw [runProgram_cons_eq r rs s (runProgram_idleState _ _), runRequests_cons, serve_responses]

theorem exists_runProgram_eq (rs : List Request) (s : State) : ∃ t out, runProgram rs s = .next (t, out) := by
  cases rs with
  | nil => exact ⟨s, [], rfl⟩
  | cons r rs => exact ⟨_, _, runProgram_of_ne_nil (List.cons_ne_nil r rs) s⟩

/-- A run of two programs in a row is a run of the two put together. -/
theorem runProgram_append {before after : List Request} {s t u : State} {out₁ out₂ : List Response}
    (h₁ : runProgram before s = .next (t, out₁)) (h₂ : runProgram after t = .next (u, out₂)) :
    runProgram (before ++ after) s = .next (u, out₁ ++ out₂) := by
  induction before generalizing s out₁ with
  | nil =>
    cases h₁
    exact h₂
  | cons r rs ih =>
    obtain ⟨v, out, hv⟩ := exists_runProgram_eq rs (idleState (serve Config.build s.block r).1)
    rw [runProgram_cons_eq r rs s hv] at h₁
    cases h₁
    rw [List.cons_append, runProgram_cons_eq r (rs ++ after) s (ih hv), List.append_assoc]

-- ## What a run leaves in `ACC`

/-- A word of opcode 2, the test that picks out the BITS2BYTE commands of a run. -/
def isBits2byteWord (w : CmdWord) : Bool := w.extractLsb' 64 3 == 2#3

theorem decode_of_isBits2byteWord {w : CmdWord} (h : isBits2byteWord w = true) :
    decode w = some (.bits2byte (intOctetOfBus (argOf w))) :=
  (decode_eq_bits2byte_iff w _).mpr ⟨beq_iff_eq.mp h, rfl⟩

theorem decode_ne_of_not_isBits2byteWord {w : CmdWord} (h : isBits2byteWord w = false) (e : Octet Byte) :
    decode w ≠ some (.bits2byte e) :=
  fun hw => beq_eq_false_iff_ne.mp h ((decode_eq_bits2byte_iff w e).mp hw).1

/-- The byte on the response port of a word. -/
def responseByte (w : CmdWord) : Byte := (respond Config.build w).data.extractLsb' 0 8

/-- After a BITS2BYTE `ACC` is the byte of its response, and any other word leaves it. -/
theorem commandStep_acc (k : Block) (w : CmdWord) :
    (commandStep Config.build k w).1.acc = if isBits2byteWord w then responseByte w else k.acc := by
  cases h : isBits2byteWord w with
  | true =>
    rw [responseByte, ← commandStep_response _ k, commandStep_of_bits2byte k rfl (decode_of_isBits2byteWord h),
      BitVec.extractLsb'_append_eq_right]
    rfl
  | false =>
    rw [commandStep_block_of_not_bits2byte k (decode_ne_of_not_isBits2byteWord h)]
    rfl

/-- The byte of the last BITS2BYTE of the commands `ws`, or `a` without one. -/
def lastPackedByte (a : Byte) (ws : List CmdWord) : Byte :=
  match ws.reverse.find? isBits2byteWord with
  | some w => responseByte w
  | none => a

theorem lastPackedByte_cons (a : Byte) (w : CmdWord) (ws : List CmdWord) :
    lastPackedByte a (w :: ws) = lastPackedByte (if isBits2byteWord w then responseByte w else a) ws := by
  rw [lastPackedByte, lastPackedByte, List.reverse_cons, List.find?_append]
  cases ws.reverse.find? isBits2byteWord with
  | some v => rfl
  | none => cases h : isBits2byteWord w <;> simp [h]

theorem runRequests_commands_acc (k : Block) (ws : List CmdWord) :
    (runRequests Config.build k (ws.map .command)).1.acc = lastPackedByte k.acc ws := by
  induction ws generalizing k with
  | nil => rfl
  | cons w ws ih =>
    rw [List.map_cons, runRequests_cons, ih, lastPackedByte_cons, ← commandStep_acc]
    rfl

-- ## The obligations

/-- Settles O48: from the first request on the machine's run is the block's run, whose responses are read off the
requests. -/
theorem runAnswersEachCommandInOrder : Obligations.RunAnswersEachCommandInOrder := by
  intro rs s
  by_cases h : rs = []
  · subst h
    exact ⟨s, rfl, rfl, absurd rfl⟩
  · refine ⟨idleState _, (runProgram_of_ne_nil h s).trans ?_, rfl, fun _ => ⟨rfl, rfl⟩⟩
    rw [runRequests_responses]
    rfl

/-- Settles O52: a served request leaves nothing of the response before it, and every run ends in a next state. -/
theorem programAndResponsesAreNotState : Obligations.ProgramAndResponsesAreNotState := by
  refine ⟨fun s r => step_with_outstanding r, fun before after s => ?_⟩
  obtain ⟨t, out₁, h₁⟩ := exists_runProgram_eq before s
  obtain ⟨u, out₂, h₂⟩ := exists_runProgram_eq after t
  exact ⟨t, u, out₁, out₂, h₁, h₂, runProgram_append h₁ h₂⟩

/-- Settles O47: the responses are read off the requests, and a reset has none. -/
theorem resetsChangeNoResponse : Obligations.ResetsChangeNoResponse := by
  intro p k k' rs
  rw [runRequests_responses, runRequests_responses, List.filterMap_filter]
  exact List.filterMap_congr fun r _ => by cases r <;> rfl

/-- Settles O49: by induction on the commands; a reset serves no response and leaves `ACC` 0. -/
theorem finalAccIsTheLastPackedByte : Obligations.FinalAccIsTheLastPackedByte :=
  fun k ws => ⟨runRequests_commands_acc k ws, rfl⟩

end Sys2Proof.Proofs
end
